-- ==== Sys2Proof/Word.lean ====
section
/-! DEFINITION. The machine's word types (10_state.md R20, R22, R24; 00_scope.md R9, R10): every value is unsigned. -/

namespace Sys2Proof

/-- An 8-bit unsigned value: a general register, a timer, a memory or frame-buffer byte (R20, R27, R29, R31). -/
abbrev Byte := BitVec 8

/-- A 16-bit unsigned value: PC, I, a stack slot, an opcode (R22, R24, R26, R70). -/
abbrev Word := BitVec 16

/-- A register index, 0 to 15 (R20, R71). -/
abbrev Reg := Fin 16

/-- VF, general register 15, which doubles as the flag register (R21). -/
abbrev vF : Reg := 15

end Sys2Proof
end

