-- ==== Sys2Proof/Config.lean ====
section
/-! DEFINITION. What one build of the CORE fixes (00_scope.md R6, R7): the fixed sizes, the two open parameters, which a
State carries as plain data, and the two free draws, which have no body. -/

namespace Sys2Proof

/-- MEM_SIZE (R6): addresses 0x000 to 0xFFF exist, and no other. -/
abbrev memSize : Nat := 4096

/-- The font's size in bytes (R6): it lies at 0x000 to 0x04F. -/
abbrev fontSize : Nat := 80

/-- The program base (R6). -/
abbrev programBase : Nat := 0x200

/-- The longest image `load` admits (R6): 4096 − 512. -/
abbrev maxImageLength : Nat := 3584

/-- FONT_STORE_POLICY (R7, R56): what a store into the "immutable" font bytes does. -/
inductive FontStorePolicy where
  | discard
  | write
  deriving DecidableEq, Repr

/-- The open parameters of R7 that are data: a model takes each as an argument. A State carries its Config, no transaction
writes it, and a statement about every state is a statement about every Config. -/
structure Config where
  /-- FONT: the 80 font bytes at 0x000 to 0x04F. -/
  font : Vector Byte fontSize
  /-- FONT_STORE_POLICY. -/
  fontStorePolicy : FontStorePolicy
  deriving DecidableEq, Repr

/-- FREE VALUE (R7 `rnd`, R152, D13): the byte drawn by the n-th draw. No distribution and no law between draws.
Assumption log entry 1. -/
opaque Config.rnd : Nat → Byte

/-- FREE VALUE (R7 `keyPressed`, R137, D12): the n-th draw's answer to `isPressed(code)` for a code 16 to 255, which the
key-input collaborator's contract does not cover. Assumption log entry 2. -/
opaque Config.keyPressed : Nat → Byte → Bool

end Sys2Proof
end

