-- ==== Sys2Proof/Machine/Defaults.lean ====
section
/-! DEFINITION. The defaults of the open parameters (00_scope.md R7; 10_state.md R31) and what memory reads as after a
reset with no image (10_state.md R31; 20_memory.md R60). -/

namespace Sys2Proof.Machine

/-- The standard CHIP-8 hexadecimal font, the default FONT of R31. PRESUMED: the spec takes the bytes from general
knowledge. Log entry 5. -/
def defaultFont : Vector Byte fontSize :=
  #v[0xF0, 0x90, 0x90, 0x90, 0xF0, 0x20, 0x60, 0x20, 0x20, 0x70, 0xF0, 0x10, 0xF0, 0x80, 0xF0, 0xF0, 0x10, 0xF0, 0x10, 0xF0,
     0x90, 0x90, 0xF0, 0x10, 0x10, 0xF0, 0x80, 0xF0, 0x10, 0xF0, 0xF0, 0x80, 0xF0, 0x90, 0xF0, 0xF0, 0x10, 0x20, 0x40, 0x40,
     0xF0, 0x90, 0xF0, 0x90, 0xF0, 0xF0, 0x90, 0xF0, 0x10, 0xF0, 0xF0, 0x90, 0xF0, 0x90, 0x90, 0xE0, 0x90, 0xE0, 0x90, 0xE0,
     0xF0, 0x80, 0x80, 0x80, 0xF0, 0xE0, 0x90, 0x90, 0x90, 0xE0, 0xF0, 0x80, 0xF0, 0x80, 0xF0, 0xF0, 0x80, 0xF0, 0x80, 0x80]

/-- The parameters at their defaults (R7): the font above, and stores into it discarded (log entry 6). -/
def defaultConfig : Config := { font := defaultFont, fontStorePolicy := .discard }

/-- What an address that memory does not list reads as: its reset contents with an empty image (R31, R60), the font byte
below 0x050 and 0 elsewhere. -/
def resetByte (c : Config) (a : Nat) : Byte := if h : a < fontSize then c.font[a] else 0

end Sys2Proof.Machine
end

