-- ==== Sys2Proof/Machine/State.lean ====
section
/-! DEFINITION. The machine's state as plain data (10_state.md R20 to R39), why a step can stop, and the state after
construction (70_reset_and_hazards.md R231). -/

namespace Sys2Proof.Machine

/-- Memory, sparse: (address, byte) pairs, addresses strictly rising, no entry equal to what an unlisted address reads as
(`resetByte`). `Memory.wf` states the form. -/
abbrev Memory := List Host.Cell

/-- The frame buffer's 256 packed bytes, fb[0] to fb[255] (R29). -/
abbrev Frame := Vector Byte 256

/-- The four error kinds (60_exceptions.md R211). -/
inductive ErrorKind where
  | unknownOpcode
  | stackOverflow
  | stackUnderflow
  | memoryFault
  deriving DecidableEq, Repr

/-- The halt record (R36). -/
structure HaltRecord where
  kind : ErrorKind
  /-- The address of the faulting instruction. -/
  pc0 : Word
  /-- Its 16-bit word, or 0 for a fetch fault. -/
  opcode : Word
  /-- The lowest faulting address for MemoryFault, 0 otherwise. -/
  addr : Nat
  deriving DecidableEq, Repr

/-- The run state (R28). -/
inductive RunState where
  | running
  | waitingForKey (x : Reg)
  | halted (err : HaltRecord)
  deriving DecidableEq, Repr

/-- The named events the core emits (40_machine_cycle.md R107). -/
inductive Event where
  | drew
  | halted (err : HaltRecord)
  | awaitingKey (x : Reg)
  deriving DecidableEq, Repr

/-- What the host does next: the transactions that drive the core (R100), and a change of the key-input collaborator's
own key state, which its `isPressed` answers from (R137; log entries 2 and 7). -/
inductive Transaction where
  | cycle
  | tick
  | reset
  | load (image : List Byte)
  | deliverKey (k : Nat)
  | setKeys (keys : Vector Bool 16)
  deriving DecidableEq, Repr

/-- The machine. The first eleven fields are the state record of R39; the rest are the model's own: the parameters of R7
and what stands for the host outside the core. -/
structure State where
  /-- V0 to VF (R20, R21). -/
  v : Vector Byte 16
  /-- I (R24). -/
  i : Word
  /-- PC (R22). -/
  pc : Word
  /-- SP, the number of stack slots in use, 0 to 16 (R25). -/
  sp : Fin 17
  /-- stack[0] to stack[15] (R26). -/
  stack : Vector Word 16
  /-- DelayTimer (R27). -/
  dt : Byte
  /-- SoundTimer (R27). -/
  st : Byte
  /-- Memory, addresses 0x000 to 0xFFF (R31). -/
  mem : Memory
  /-- The frame buffer (R29). -/
  fb : Frame
  /-- The run state, with the key-wait target or the halt record (R28, R36). -/
  run : RunState
  /-- The last-loaded program image (R33). -/
  image : List Byte
  /-- MODEL'S OWN: the open parameters of R7, fixed for one machine (log entries 5 and 6). -/
  cfg : Config
  /-- MODEL'S OWN: how many draws were taken, so that each draw is a fresh free value (log entry 9). -/
  draws : Nat
  /-- MODEL'S OWN: the key-input collaborator's key state for codes 0 to 15 (log entry 2). -/
  keys : Vector Bool 16
  /-- MODEL'S OWN: the events emitted so far, newest first (R107; log entry 8). -/
  events : List Event
  /-- MODEL'S OWN: the host's next transactions, first to be applied first; an empty list means that the host calls
  `cycle()` (R109; log entry 7). -/
  schedule : List Transaction
  deriving DecidableEq, Repr

/-- Why the machine stops with a fault: nothing does. Every error the spec names is an entry into Halted, which is a next
state (60_exceptions.md R210). Log entry 22. -/
inductive Fault where
  deriving DecidableEq, Repr

/-- Why a step has no next state. -/
inductive Refusal where
  /-- An instruction with no meaning in exec's arm. No arm raises it. Safe: nothing can be proved past it. -/
  | notModelled (mnemonic : String)
  /-- `load` of an image longer than 3584 bytes: "refuse, no step" (R108). Raised by the load transaction. Safe: the spec
  admits no step. -/
  | imageTooLong (length : Nat)
  /-- `deliverKey` of a code above 15: "refuse, not admitted" (R174, R175). Raised by the deliverKey transaction. Safe: the
  spec admits no step. -/
  | keyCodeOutOfRange (k : Nat)
  deriving DecidableEq, Repr

/-- A newly constructed core with the parameters `c` (R231): the state `reset()` gives with the empty image. The model's
own fields start with no draw taken, no key held, no event emitted and an empty schedule (log entries 2, 7, 8, 9). -/
def State.construct (c : Config) : State where
  v := Vector.replicate 16 0
  i := 0
  pc := 0x200
  sp := 0
  stack := Vector.replicate 16 0
  dt := 0
  st := 0
  mem := []
  fb := Vector.replicate 256 0
  run := .running
  image := []
  cfg := c
  draws := 0
  keys := Vector.replicate 16 false
  events := []
  schedule := []

/-- The machine right after reset, nothing loaded (R230, R231), with the parameters at their defaults. -/
def State.reset : State := State.construct defaultConfig

end Sys2Proof.Machine
end

