-- ==== Sys2Proof/Machine/Flags.lean ====
section
/-! DEFINITION. Every flag computation (10_state.md R34; 43_register_alu.md R142): the value an instruction writes to VF. -/

namespace Sys2Proof.Machine

/-- A flag value: 1 or 0. -/
def flagOf (c : Bool) : Byte := if c then 1 else 0

/-- ADD Vx,Vy: the carry, 1 if a + b > 255 (R147). -/
def carryFlag (a b : Byte) : Byte := flagOf (255 < a.toNat + b.toNat)

/-- a − b: 1 when there is no borrow, a ≥ b (R148; R150 with the operands reversed). -/
def noBorrowFlag (a b : Byte) : Byte := flagOf (b.toNat ≤ a.toNat)

/-- SHR: the bit shifted out, a & 1 (R149). -/
def lowBitOut (a : Byte) : Byte := a &&& 1

/-- SHL: the bit shifted out, (a >> 7) & 1 (R151). -/
def highBitOut (a : Byte) : Byte := (a >>> 7) &&& 1

/-- DRW: the collision (R194). -/
def collisionFlag (c : Bool) : Byte := flagOf c

end Sys2Proof.Machine
end

