-- ==== Sys2Proof/Machine/Memory.lean ====
section
/-! DEFINITION. The one address space (20_memory.md R50, R52, R53, R60) as a sparse list in canonical form: reading and
writing one byte, writing a run of bytes. Checks and policy stand in Ops.lean. -/

namespace Sys2Proof.Machine

/-- The canonical form of a memory: addresses exist and strictly rise, and no entry equals what its address reads as
unlisted, so that equal contents are equal lists. -/
abbrev Memory.wf (c : Config) (m : Memory) : Prop :=
  m.Pairwise (fun p q => p.1 < q.1) ∧ ∀ p ∈ m, p.1 < memSize ∧ p.2 ≠ resetByte c p.1

/-- The byte at `a`. -/
def Memory.read (c : Config) (m : Memory) (a : Nat) : Byte := (m.lookup a).getD (resetByte c a)

/-- The memory with no entry for `a`. -/
def Memory.erase (a : Nat) (m : Memory) : Memory := m.filter (fun p => p.1 != a)

/-- The memory with the entry (a, b), in its place. -/
def Memory.put (a : Nat) (b : Byte) : Memory → Memory
  | [] => [(a, b)]
  | p :: rest =>
    if a < p.1 then (a, b) :: p :: rest
    else if a = p.1 then (a, b) :: rest
    else p :: Memory.put a b rest

/-- The memory after byte `b` is stored at `a`. -/
def Memory.write (c : Config) (m : Memory) (a : Nat) (b : Byte) : Memory :=
  if b = resetByte c a then Memory.erase a m else Memory.put a b m

/-- The memory after the bytes are stored one after another from `a` on. -/
def Memory.writeList (c : Config) (m : Memory) (a : Nat) : List Byte → Memory
  | [] => m
  | b :: rest => Memory.writeList c (Memory.write c m a b) (a + 1) rest

end Sys2Proof.Machine
end

