-- ==== Sys2Proof/Machine/Ops.lean ====
section
/-! DEFINITION. The named operations on the state (00_scope.md R11): registers, the stack, memory, the draws, events;
entering Halted and, beside it, `reset()`, the only way out of it. -/

namespace Sys2Proof.Machine

/-! ## Registers (R20, R22, R24, R27, R28) -/

/-- V[x]. -/
def State.getV (s : State) (x : Reg) : Byte := s.v[x.val]

/-- V[x] <- b. -/
def State.setV (s : State) (x : Reg) (b : Byte) : State := { s with v := s.v.set x.val b }

/-- The writes of an instruction with a flag: VF first, then V[x], so that with x = F the result remains (R34, D6; log
entry 12). -/
def State.setFlagThenV (s : State) (flag : Byte) (x : Reg) (b : Byte) : State := (s.setV vF flag).setV x b

/-- PC <- w. -/
def State.setPC (s : State) (w : Word) : State := { s with pc := w }

/-- I <- w. -/
def State.setI (s : State) (w : Word) : State := { s with i := w }

/-- DT <- b. -/
def State.setDT (s : State) (b : Byte) : State := { s with dt := b }

/-- ST <- b. -/
def State.setST (s : State) (b : Byte) : State := { s with st := b }

/-- run <- r. -/
def State.setRun (s : State) (r : RunState) : State := { s with run := r }

/-- fb <- f. -/
def State.setFb (s : State) (f : Frame) : State := { s with fb := f }

/-- PC <- PC + 2, taken mod 65536 (R22, R23): the fetch advance and a taken skip. -/
def State.advancePC (s : State) : State := s.setPC (s.pc + 2)

/-- The conditional skip of R136: one more word is passed over when `c`. -/
def State.skipIf (s : State) (c : Bool) : State := if c then s.advancePC else s

/-- V[0..k] <- the bytes, k + 1 of them read from `f` (R165). -/
def State.setRegsUpTo (s : State) (k : Reg) (f : Nat → Byte) : State :=
  { s with v := Vector.ofFn fun r : Fin 16 => if r.val ≤ k.val then f r.val else s.v[r.val] }

/-! ## Events (R107) -/

/-- Emit an event. -/
def State.emit (s : State) (e : Event) : State := { s with events := e :: s.events }

/-! ## Entering and leaving Halted (60_exceptions.md R210, R218, R219) -/

/-- `halt(kind, pc0, op, addr)` (R101): the run state holds the record and the halted event is emitted. Nothing else
changes. -/
def State.halt (s : State) (err : HaltRecord) : State := (s.setRun (.halted err)).emit (.halted err)

/-- `raise E(info)` by the instruction whose word is `op`, at decode or in execution (R210): no write of the instruction
lands and PC keeps the fetch advance, so that the instruction's address pc0 is PC − 2 (R105; log entry 10). -/
def State.raise (s : State) (kind : ErrorKind) (op : Word) (addr : Nat) : State :=
  s.halt { kind := kind, pc0 := s.pc - 2, opcode := op, addr := addr }

/-- The halt of a fetch fault (R101): PC is not advanced and no word was fetched. -/
def State.raiseFetch (s : State) (addr : Nat) : State :=
  s.halt { kind := .memoryFault, pc0 := s.pc, opcode := 0, addr := addr }

/-- `reset()` (70_reset_and_hazards.md R230): every piece of the core's state is written, memory is rebuilt from the font
and the last-loaded image, and the image is kept. The model's own fields are the host's and are kept (log entry 14). -/
def State.hostReset (s : State) : State :=
  { s with
    v := Vector.replicate 16 0
    i := 0
    pc := 0x200
    sp := 0
    stack := Vector.replicate 16 0
    dt := 0
    st := 0
    mem := Memory.writeList s.cfg [] programBase s.image
    fb := Vector.replicate 256 0
    run := .running }

/-! ## The return stack (41_control_transfer.md R124, R125; log entry 13) -/

/-- `push(w)`, or StackOverflow at SP = 16. -/
def State.push (s : State) (w : Word) : Except ErrorKind State :=
  if h : s.sp.val < 16 then .ok { s with stack := s.stack.set s.sp.val w, sp := ⟨s.sp.val + 1, by omega⟩ }
  else .error .stackOverflow

/-- `pop()`: the word and the state with SP decremented, or StackUnderflow at SP = 0. The slot keeps its value. -/
def State.pop (s : State) : Except ErrorKind (Word × State) :=
  if h : 0 < s.sp.val then
    .ok (s.stack[s.sp.val - 1]'(by omega), { s with sp := ⟨s.sp.val - 1, by omega⟩ })
  else .error .stackUnderflow

/-! ## Memory (20_memory.md R52, R53, R56, R58) -/

/-- mem[a], with no check: what the byte at `a` holds. -/
def State.readByte (s : State) (a : Nat) : Byte := Memory.read s.cfg s.mem a

/-- The range check shared by every access (R52, R54, R58): an access to the `n` bytes from `a` on faults, as a whole, with
the lowest address above 0xFFF it would touch. An access of no byte cannot fault. -/
def rangeFault (a n : Nat) : Option Nat := if 0 < n ∧ memSize ≤ a + n - 1 then some (max a memSize) else none

/-- MemRead for the `n` bytes from `a` on: the bytes, or the address MemoryFault records. -/
def State.memRead (s : State) (a n : Nat) : Except Nat (List Byte) :=
  match rangeFault a n with
  | some addr => .error addr
  | none => .ok ((List.range n).map fun k => s.readByte (a + k))

/-- Whether a store to `a` is discarded (R56): a font byte under the policy `discard`. -/
def State.storeDiscarded (s : State) (a : Nat) : Bool := a < fontSize && s.cfg.fontStorePolicy == .discard

/-- MemWrite of one byte at an address that exists (R53). -/
def State.writeByte (s : State) (a : Nat) (b : Byte) : State :=
  if s.storeDiscarded a then s else { s with mem := Memory.write s.cfg s.mem a b }

/-- MemWrite of the bytes one after another from `a` on. -/
def State.writeBytes (s : State) (a : Nat) : List Byte → State
  | [] => s
  | b :: rest => (s.writeByte a b).writeBytes (a + 1) rest

/-- MemWrite for all the bytes from `a` on, checked as a whole (R58): the state after, or the address MemoryFault
records. -/
def State.memWrite (s : State) (a : Nat) (bytes : List Byte) : Except Nat State :=
  match rangeFault a bytes.length with
  | some addr => .error addr
  | none => .ok (s.writeBytes a bytes)

/-! ## Draws (00_scope.md R7, R11) -/

/-- One draw is taken: the next one is a fresh free value. -/
def State.tookDraw (s : State) : State := { s with draws := s.draws + 1 }

/-- `draw_rnd()`: any byte (R152). -/
def State.drawRnd (s : State) : Byte := Config.rnd s.draws

/-- `draw_key(code)` (R137): the collaborator's key state for codes 0 to 15, a free answer for codes 16 to 255. -/
def State.drawKey (s : State) (code : Byte) : Bool :=
  if h : code.toNat < 16 then s.keys[code.toNat] else Config.keyPressed s.draws code

end Sys2Proof.Machine
end

