-- ==== Sys2Proof/Machine/Operands.lean ====
section
/-! DEFINITION. Every operand form (30_encoding.md R78; 44_index_memory.md R163 to R166): the register bytes, the
absolute target, the I-relative address, the bytes an instruction stores. -/

namespace Sys2Proof.Machine

/-- The absolute 12-bit target NNN of JP, CALL and LD I, unscaled (R78). -/
def absolute (addr : Nat) : Word := BitVec.ofNat 16 addr

/-- NNN + V[0], the target of JP V0,addr, without truncation below 65536 (R123). -/
def State.v0Target (s : State) (addr : Nat) : Word := BitVec.ofNat 16 (addr + (s.getV 0).toNat)

/-- The base of the one data addressing mode, I as a number: every address is I + k, formed without truncation (R166). -/
def State.base (s : State) : Nat := s.i.toNat

/-- I + V[X] as a number, without truncation (R161). -/
def State.indexSum (s : State) (x : Reg) : Nat := s.i.toNat + (s.getV x).toNat

/-- The address of glyph V[X]: 0x000 + 5·V[X], V[X] not reduced to a nibble (R162; log entry 19). -/
def State.glyphAddress (s : State) (x : Reg) : Word := BitVec.ofNat 16 (5 * (s.getV x).toNat)

/-- The three decimal digits of a byte, hundreds first (R163). -/
def decimalDigits (b : Byte) : List Byte :=
  [BitVec.ofNat 8 (b.toNat / 100), BitVec.ofNat 8 (b.toNat / 10 % 10), BitVec.ofNat 8 (b.toNat % 10)]

/-- The bytes V[0] to V[X] (R164). -/
def State.regsUpTo (s : State) (x : Reg) : List Byte := s.v.toList.take (x.val + 1)

end Sys2Proof.Machine
end

