-- ==== Sys2Proof/Machine/Alu.lean ====
section
/-! DEFINITION. Register loads, arithmetic and logic (43_register_alu.md R140 to R152): unsigned, 8 bits, modulo 256
(R142). Operands are read before any write (R12); none of these raises an error. -/

namespace Sys2Proof.Machine

/-- LD Vx,byte (R140). -/
def execLdByte (x : Reg) (nn : Byte) (s : State) : Host.Outcome State Fault Refusal := .next (s.setV x nn)

/-- ADD Vx,byte (R141): no flag. -/
def execAddByte (x : Reg) (nn : Byte) (s : State) : Host.Outcome State Fault Refusal :=
  .next (s.setV x (s.getV x + nn))

/-- LD Vx,Vy (R143). -/
def execLdReg (x y : Reg) (s : State) : Host.Outcome State Fault Refusal := .next (s.setV x (s.getV y))

/-- OR Vx,Vy (R144): VF is not reset. -/
def execOrReg (x y : Reg) (s : State) : Host.Outcome State Fault Refusal := .next (s.setV x (s.getV x ||| s.getV y))

/-- AND Vx,Vy (R145). -/
def execAndReg (x y : Reg) (s : State) : Host.Outcome State Fault Refusal := .next (s.setV x (s.getV x &&& s.getV y))

/-- XOR Vx,Vy (R146). -/
def execXorReg (x y : Reg) (s : State) : Host.Outcome State Fault Refusal := .next (s.setV x (s.getV x ^^^ s.getV y))

/-- ADD Vx,Vy (R147). -/
def execAddReg (x y : Reg) (s : State) : Host.Outcome State Fault Refusal :=
  .next (s.setFlagThenV (carryFlag (s.getV x) (s.getV y)) x (s.getV x + s.getV y))

/-- SUB Vx,Vy (R148). -/
def execSubReg (x y : Reg) (s : State) : Host.Outcome State Fault Refusal :=
  .next (s.setFlagThenV (noBorrowFlag (s.getV x) (s.getV y)) x (s.getV x - s.getV y))

/-- SHR Vx (R149): V[Y] is neither read nor written. -/
def execShr (x _y : Reg) (s : State) : Host.Outcome State Fault Refusal :=
  .next (s.setFlagThenV (lowBitOut (s.getV x)) x (s.getV x >>> 1))

/-- SUBN Vx,Vy (R150). -/
def execSubnReg (x y : Reg) (s : State) : Host.Outcome State Fault Refusal :=
  .next (s.setFlagThenV (noBorrowFlag (s.getV y) (s.getV x)) x (s.getV y - s.getV x))

/-- SHL Vx (R151): V[Y] is neither read nor written. -/
def execShl (x _y : Reg) (s : State) : Host.Outcome State Fault Refusal :=
  .next (s.setFlagThenV (highBitOut (s.getV x)) x (s.getV x <<< 1))

/-- RND Vx,byte (R152): the drawn byte is a free value (log entry 1). -/
def execRnd (x : Reg) (nn : Byte) (s : State) : Host.Outcome State Fault Refusal :=
  .next (s.tookDraw.setV x (s.drawRnd &&& nn))

end Sys2Proof.Machine
end

