-- ==== Sys2Proof/Syntax.lean ====
section
/-! DEFINITION. The instructions, whole: one constructor per row of spec/opcode_table.json, in its order (30_encoding.md
R77), with every operand field the row gives (R71, R72). -/

namespace Sys2Proof

/-- An instruction with its operands. `x` and `y` are register indices, `nn` the 8-bit immediate; `addr` (NNN) and `n` are
numbers, whose ranges `Instr.wellFormed` checks. SHR and SHL carry the Y field that they ignore (R78), so that no bit of
their encoding is dropped. -/
inductive Instr where
  /-- 00E0 -/
  | cls
  /-- 00EE -/
  | ret
  /-- 1NNN -/
  | jp (addr : Nat)
  /-- 2NNN -/
  | call (addr : Nat)
  /-- 3XNN, SE Vx,byte -/
  | seByte (x : Reg) (nn : Byte)
  /-- 4XNN, SNE Vx,byte -/
  | sneByte (x : Reg) (nn : Byte)
  /-- 5XY0, SE Vx,Vy -/
  | seReg (x y : Reg)
  /-- 6XNN, LD Vx,byte -/
  | ldByte (x : Reg) (nn : Byte)
  /-- 7XNN, ADD Vx,byte -/
  | addByte (x : Reg) (nn : Byte)
  /-- 8XY0, LD Vx,Vy -/
  | ldReg (x y : Reg)
  /-- 8XY1 -/
  | orReg (x y : Reg)
  /-- 8XY2 -/
  | andReg (x y : Reg)
  /-- 8XY3 -/
  | xorReg (x y : Reg)
  /-- 8XY4, ADD Vx,Vy -/
  | addReg (x y : Reg)
  /-- 8XY5, SUB Vx,Vy -/
  | subReg (x y : Reg)
  /-- 8XY6, SHR Vx (Y ignored) -/
  | shr (x y : Reg)
  /-- 8XY7, SUBN Vx,Vy -/
  | subnReg (x y : Reg)
  /-- 8XYE, SHL Vx (Y ignored) -/
  | shl (x y : Reg)
  /-- 9XY0, SNE Vx,Vy -/
  | sneReg (x y : Reg)
  /-- ANNN, LD I,addr -/
  | ldI (addr : Nat)
  /-- BNNN, JP V0,addr -/
  | jpV0 (addr : Nat)
  /-- CXNN, RND Vx,byte -/
  | rnd (x : Reg) (nn : Byte)
  /-- DXYN, DRW Vx,Vy,n -/
  | drw (x y : Reg) (n : Nat)
  /-- EX9E, SKP Vx -/
  | skp (x : Reg)
  /-- EXA1, SKNP Vx -/
  | sknp (x : Reg)
  /-- FX07, LD Vx,DT -/
  | ldVxDT (x : Reg)
  /-- FX0A, LD Vx,K -/
  | ldVxK (x : Reg)
  /-- FX15, LD DT,Vx -/
  | ldDTVx (x : Reg)
  /-- FX18, LD ST,Vx -/
  | ldSTVx (x : Reg)
  /-- FX1E, ADD I,Vx -/
  | addI (x : Reg)
  /-- FX29, LD F,Vx -/
  | ldF (x : Reg)
  /-- FX33, LD B,Vx -/
  | ldB (x : Reg)
  /-- FX55, LD [I],Vx -/
  | storeRegs (x : Reg)
  /-- FX65, LD Vx,[I] -/
  | loadRegs (x : Reg)
  deriving DecidableEq, Repr

end Sys2Proof
end

