-- ==== Sys2Proof/WellFormed.lean ====
section
/-! DEFINITION. Which instructions the encoding admits: the operand ranges that the types of Sys2Proof.Syntax do not carry
already (30_encoding.md R71, R78, R81: "addr is a literal 0x000 to 0xFFF", "n is a literal 0 to 15"). -/

namespace Sys2Proof

/-- NNN is a 12-bit address (R71). -/
def addrInRange (addr : Nat) : Bool := addr < 4096

/-- N is a 4-bit row count (R71). -/
def rowsInRange (n : Nat) : Bool := n < 16

/-- An instruction whose every operand fits the field that encodes it. -/
def Instr.wellFormed : Instr → Bool
  | .jp addr => addrInRange addr
  | .call addr => addrInRange addr
  | .ldI addr => addrInRange addr
  | .jpV0 addr => addrInRange addr
  | .drw _ _ n => rowsInRange n
  | .cls => true
  | .ret => true
  | .seByte _ _ => true
  | .sneByte _ _ => true
  | .seReg _ _ => true
  | .ldByte _ _ => true
  | .addByte _ _ => true
  | .ldReg _ _ => true
  | .orReg _ _ => true
  | .andReg _ _ => true
  | .xorReg _ _ => true
  | .addReg _ _ => true
  | .subReg _ _ => true
  | .shr _ _ => true
  | .subnReg _ _ => true
  | .shl _ _ => true
  | .sneReg _ _ => true
  | .rnd _ _ => true
  | .skp _ => true
  | .sknp _ => true
  | .ldVxDT _ => true
  | .ldVxK _ => true
  | .ldDTVx _ => true
  | .ldSTVx _ => true
  | .addI _ => true
  | .ldF _ => true
  | .ldB _ => true
  | .storeRegs _ => true
  | .loadRegs _ => true

end Sys2Proof
end

