-- ==== Sys2Proof/Decode.lean ====
section
/-! DEFINITION. The decoder (30_encoding.md R70 to R80): fields, mask, the exact-match table, the instruction or a named
rejection; then the encoder, from the same table; then the assembler spelling (R81). -/

namespace Sys2Proof

/-! ## Fields (R71) -/

/-- The leading nibble, op[15:12] (R9). -/
def leadingNibble (op : Word) : Nat := op.toNat / 4096

/-- X = op[11:8]. -/
def fieldX (op : Word) : Reg := ⟨op.toNat / 256 % 16, Nat.mod_lt _ (by decide)⟩

/-- Y = op[7:4]. -/
def fieldY (op : Word) : Reg := ⟨op.toNat / 16 % 16, Nat.mod_lt _ (by decide)⟩

/-- N = op[3:0]. -/
def fieldN (op : Word) : Nat := op.toNat % 16

/-- NN = op[7:0]. -/
def fieldNN (op : Word) : Byte := BitVec.ofNat 8 op.toNat

/-- NNN = op[11:0]. -/
def fieldNNN (op : Word) : Nat := op.toNat % 4096

/-! ## Mask and table (R74 to R77) -/

/-- The mask the leading nibble selects (R74): class Z, class T, class B, class L. -/
def maskOf (op : Word) : Word :=
  match leadingNibble op with
  | 0x0 => 0xFFFF
  | 0x5 => 0xF00F
  | 0x8 => 0xF00F
  | 0x9 => 0xF00F
  | 0xE => 0xF0FF
  | 0xF => 0xF0FF
  | _ => 0xF000

/-- The fields the decoder extracts from every opcode, whatever it decodes to (R71, R75). -/
structure Fields where
  x : Reg
  y : Reg
  n : Nat
  nn : Byte
  nnn : Nat
  deriving DecidableEq, Repr

def fieldsOf (op : Word) : Fields :=
  { x := fieldX op, y := fieldY op, n := fieldN op, nn := fieldNN op, nnn := fieldNNN op }

/-- The InstructionId of a word that misses the table (R77). -/
abbrev unknownId : Nat := 34

/-- The decode table of R77: the masked value of each row and its Id#. -/
def decodeTable : List (Word × Nat) :=
  [(0x00E0, 0), (0x00EE, 1), (0x1000, 2), (0x2000, 3), (0x3000, 4), (0x4000, 5), (0x5000, 6), (0x6000, 7),
   (0x7000, 8)] ++
  [(0x8000, 9), (0x8001, 10), (0x8002, 11), (0x8003, 12), (0x8004, 13), (0x8005, 14), (0x8006, 15), (0x8007, 16),
   (0x800E, 17)] ++
  [(0x9000, 18), (0xA000, 19), (0xB000, 20), (0xC000, 21), (0xD000, 22), (0xE09E, 23), (0xE0A1, 24)] ++
  [(0xF007, 25), (0xF00A, 26), (0xF015, 27), (0xF018, 28), (0xF01E, 29), (0xF029, 30), (0xF033, 31), (0xF055, 32),
   (0xF065, 33)]

/-- The exact-match lookup of the masked word (R75): a hit yields the row's Id#, a miss UnknownOpcode. -/
def instructionId (op : Word) : Nat := (decodeTable.lookup (op &&& maskOf op)).getD unknownId

/-- The decoder's output ports (R73, R80). -/
structure DecoderOut where
  id : Nat
  fields : Fields
  unknown : Bool
  deriving DecidableEq, Repr

/-- The decoder as the combinational function of `op` alone that R73 and R80 describe. -/
def decoder (op : Word) : DecoderOut :=
  let id := instructionId op
  { id := id, fields := fieldsOf op, unknown := id == unknownId }

/-! ## The instruction a word stands for -/

/-- Why the decoder gives no instruction. -/
inductive DecodeReject where
  /-- The word misses the table (R75, R79). -/
  | unknownOpcode (op : Word)
  /-- Fewer than the two bytes of an instruction (R70). -/
  | truncated
  deriving DecidableEq, Repr

/-- The instruction of an Id# with its operands (R77, R78): the fields the instruction does not use are ignored. -/
def Fields.instr (f : Fields) : Nat → Option Instr
  | 0 => some .cls
  | 1 => some .ret
  | 2 => some (.jp f.nnn)
  | 3 => some (.call f.nnn)
  | 4 => some (.seByte f.x f.nn)
  | 5 => some (.sneByte f.x f.nn)
  | 6 => some (.seReg f.x f.y)
  | 7 => some (.ldByte f.x f.nn)
  | 8 => some (.addByte f.x f.nn)
  | 9 => some (.ldReg f.x f.y)
  | 10 => some (.orReg f.x f.y)
  | 11 => some (.andReg f.x f.y)
  | 12 => some (.xorReg f.x f.y)
  | 13 => some (.addReg f.x f.y)
  | 14 => some (.subReg f.x f.y)
  | 15 => some (.shr f.x f.y)
  | 16 => some (.subnReg f.x f.y)
  | 17 => some (.shl f.x f.y)
  | 18 => some (.sneReg f.x f.y)
  | 19 => some (.ldI f.nnn)
  | 20 => some (.jpV0 f.nnn)
  | 21 => some (.rnd f.x f.nn)
  | 22 => some (.drw f.x f.y f.n)
  | 23 => some (.skp f.x)
  | 24 => some (.sknp f.x)
  | 25 => some (.ldVxDT f.x)
  | 26 => some (.ldVxK f.x)
  | 27 => some (.ldDTVx f.x)
  | 28 => some (.ldSTVx f.x)
  | 29 => some (.addI f.x)
  | 30 => some (.ldF f.x)
  | 31 => some (.ldB f.x)
  | 32 => some (.storeRegs f.x)
  | 33 => some (.loadRegs f.x)
  | _ => none

/-- One opcode word to its instruction, or UnknownOpcode (R75). -/
def decode (op : Word) : Except DecodeReject Instr :=
  match (fieldsOf op).instr (instructionId op) with
  | some i => .ok i
  | none => .error (.unknownOpcode op)

/-- The opcode two consecutive bytes hold: the byte at the lower address is op[15:8] (R54, R55). Log entry 3. -/
def wordOfBytes (first second : Byte) : Word := first ++ second

/-- The two bytes of an opcode, the first at the lower address. -/
def bytesOfWord (op : Word) : List Byte := [BitVec.ofNat 8 (op.toNat / 256), BitVec.ofNat 8 op.toNat]

/-- The decoder on a byte sequence: an instruction and the bytes after it (R70), total on any bytes. -/
def decodeBytes : List Byte → Except DecodeReject (Instr × List Byte)
  | first :: second :: rest =>
    match decode (wordOfBytes first second) with
    | .ok i => .ok (i, rest)
    | .error e => .error e
  | _ => .error .truncated

/-- A row of spec/opcode_table.json as a number: the opcode is its low `nbits` bits, at most 16 of them. -/
def tableWord (nbits w : Nat) : Word := BitVec.ofNat 16 (w % 2 ^ nbits)

/-- What the decoder reads from the instruction whose bits are `w`, numbered as spec/opcode_table.json numbers them. -/
def decodeTableWord (nbits w : Nat) : Option Instr :=
  match decodeBytes (bytesOfWord (tableWord nbits w)) with
  | .ok (i, _) => some i
  | .error _ => none

/-! ## The encoder (R72, R77) -/

/-- The Id# of an instruction (R77). -/
def Instr.id : Instr → Nat
  | .cls => 0
  | .ret => 1
  | .jp _ => 2
  | .call _ => 3
  | .seByte _ _ => 4
  | .sneByte _ _ => 5
  | .seReg _ _ => 6
  | .ldByte _ _ => 7
  | .addByte _ _ => 8
  | .ldReg _ _ => 9
  | .orReg _ _ => 10
  | .andReg _ _ => 11
  | .xorReg _ _ => 12
  | .addReg _ _ => 13
  | .subReg _ _ => 14
  | .shr _ _ => 15
  | .subnReg _ _ => 16
  | .shl _ _ => 17
  | .sneReg _ _ => 18
  | .ldI _ => 19
  | .jpV0 _ => 20
  | .rnd _ _ => 21
  | .drw _ _ _ => 22
  | .skp _ => 23
  | .sknp _ => 24
  | .ldVxDT _ => 25
  | .ldVxK _ => 26
  | .ldDTVx _ => 27
  | .ldSTVx _ => 28
  | .addI _ => 29
  | .ldF _ => 30
  | .ldB _ => 31
  | .storeRegs _ => 32
  | .loadRegs _ => 33

/-- Format A: op, NNN. -/
def formatA (op addr : Nat) : Word := BitVec.ofNat 16 (op * 4096 + addr)

/-- Format RB: op, X, NN. -/
def formatRB (op : Nat) (x : Reg) (nn : Byte) : Word := BitVec.ofNat 16 (op * 4096 + x.val * 256 + nn.toNat)

/-- Formats RRN and RRT: op, X, Y, and the row count or the sub-op nibble. -/
def formatRR (op : Nat) (x y : Reg) (t : Nat) : Word := BitVec.ofNat 16 (op * 4096 + x.val * 256 + y.val * 16 + t)

/-- Format RS: op, X, the sub-op byte. -/
def formatRS (op : Nat) (x : Reg) (sub : Nat) : Word := BitVec.ofNat 16 (op * 4096 + x.val * 256 + sub)

/-- The word of a well-formed instruction (R72, R77). -/
def encode : Instr → Word
  | .cls => 0x00E0
  | .ret => 0x00EE
  | .jp addr => formatA 0x1 addr
  | .call addr => formatA 0x2 addr
  | .seByte x nn => formatRB 0x3 x nn
  | .sneByte x nn => formatRB 0x4 x nn
  | .seReg x y => formatRR 0x5 x y 0x0
  | .ldByte x nn => formatRB 0x6 x nn
  | .addByte x nn => formatRB 0x7 x nn
  | .ldReg x y => formatRR 0x8 x y 0x0
  | .orReg x y => formatRR 0x8 x y 0x1
  | .andReg x y => formatRR 0x8 x y 0x2
  | .xorReg x y => formatRR 0x8 x y 0x3
  | .addReg x y => formatRR 0x8 x y 0x4
  | .subReg x y => formatRR 0x8 x y 0x5
  | .shr x y => formatRR 0x8 x y 0x6
  | .subnReg x y => formatRR 0x8 x y 0x7
  | .shl x y => formatRR 0x8 x y 0xE
  | .sneReg x y => formatRR 0x9 x y 0x0
  | .ldI addr => formatA 0xA addr
  | .jpV0 addr => formatA 0xB addr
  | .rnd x nn => formatRB 0xC x nn
  | .drw x y n => formatRR 0xD x y n
  | .skp x => formatRS 0xE x 0x9E
  | .sknp x => formatRS 0xE x 0xA1
  | .ldVxDT x => formatRS 0xF x 0x07
  | .ldVxK x => formatRS 0xF x 0x0A
  | .ldDTVx x => formatRS 0xF x 0x15
  | .ldSTVx x => formatRS 0xF x 0x18
  | .addI x => formatRS 0xF x 0x1E
  | .ldF x => formatRS 0xF x 0x29
  | .ldB x => formatRS 0xF x 0x33
  | .storeRegs x => formatRS 0xF x 0x55
  | .loadRegs x => formatRS 0xF x 0x65

/-- The two bytes of an instruction, the first at the lower address. -/
def encodeBytes (i : Instr) : List Byte := bytesOfWord (encode i)

/-! ## Assembler spelling (R81) -/

/-- One hexadecimal digit. -/
def hexDigit (d : Nat) : String :=
  match d with
  | 10 => "A"
  | 11 => "B"
  | 12 => "C"
  | 13 => "D"
  | 14 => "E"
  | 15 => "F"
  | d => toString d

/-- Register X as the assembler spells it, V0 to VF. -/
def asmReg (x : Reg) : String := "V" ++ hexDigit x.val

/-- A byte literal with the 0x prefix. -/
def asmByte (b : Byte) : String := "0x" ++ hexDigit (b.toNat / 16) ++ hexDigit (b.toNat % 16)

/-- An address literal with the 0x prefix. -/
def asmAddr (addr : Nat) : String :=
  "0x" ++ hexDigit (addr / 256) ++ hexDigit (addr / 16 % 16) ++ hexDigit (addr % 16)

/-- An instruction as R81 spells it. SHR and SHL show no Y operand. -/
def Instr.asm : Instr → String
  | .cls => "CLS"
  | .ret => "RET"
  | .jp addr => "JP " ++ asmAddr addr
  | .call addr => "CALL " ++ asmAddr addr
  | .seByte x nn => "SE " ++ asmReg x ++ "," ++ asmByte nn
  | .sneByte x nn => "SNE " ++ asmReg x ++ "," ++ asmByte nn
  | .seReg x y => "SE " ++ asmReg x ++ "," ++ asmReg y
  | .ldByte x nn => "LD " ++ asmReg x ++ "," ++ asmByte nn
  | .addByte x nn => "ADD " ++ asmReg x ++ "," ++ asmByte nn
  | .ldReg x y => "LD " ++ asmReg x ++ "," ++ asmReg y
  | .orReg x y => "OR " ++ asmReg x ++ "," ++ asmReg y
  | .andReg x y => "AND " ++ asmReg x ++ "," ++ asmReg y
  | .xorReg x y => "XOR " ++ asmReg x ++ "," ++ asmReg y
  | .addReg x y => "ADD " ++ asmReg x ++ "," ++ asmReg y
  | .subReg x y => "SUB " ++ asmReg x ++ "," ++ asmReg y
  | .shr x _ => "SHR " ++ asmReg x
  | .subnReg x y => "SUBN " ++ asmReg x ++ "," ++ asmReg y
  | .shl x _ => "SHL " ++ asmReg x
  | .sneReg x y => "SNE " ++ asmReg x ++ "," ++ asmReg y
  | .ldI addr => "LD I," ++ asmAddr addr
  | .jpV0 addr => "JP V0," ++ asmAddr addr
  | .rnd x nn => "RND " ++ asmReg x ++ "," ++ asmByte nn
  | .drw x y n => "DRW " ++ asmReg x ++ "," ++ asmReg y ++ "," ++ toString n
  | .skp x => "SKP " ++ asmReg x
  | .sknp x => "SKNP " ++ asmReg x
  | .ldVxDT x => "LD " ++ asmReg x ++ ",DT"
  | .ldVxK x => "LD " ++ asmReg x ++ ",K"
  | .ldDTVx x => "LD DT," ++ asmReg x
  | .ldSTVx x => "LD ST," ++ asmReg x
  | .addI x => "ADD I," ++ asmReg x
  | .ldF x => "LD F," ++ asmReg x
  | .ldB x => "LD B," ++ asmReg x
  | .storeRegs x => "LD [I]," ++ asmReg x
  | .loadRegs x => "LD " ++ asmReg x ++ ",[I]"

end Sys2Proof
end

