-- ==== Sys2Proof/Machine/ControlTransfer.lean ====
section
/-! DEFINITION. RET, JP addr, CALL addr, JP V0,addr (41_control_transfer.md R120 to R128). Each runs with PC = pc0 + 2.
No target is checked when PC is written (log entry 18). -/

namespace Sys2Proof.Machine

/-- RET (R120). -/
def execRet (s : State) : Host.Outcome State Fault Refusal :=
  match s.pop with
  | .ok (w, s') => .next (s'.setPC w)
  | .error kind => .next (s.raise kind (encode .ret) 0)

/-- JP addr (R121). -/
def execJp (addr : Nat) (s : State) : Host.Outcome State Fault Refusal := .next (s.setPC (absolute addr))

/-- CALL addr (R122): the word pushed is the advanced PC. -/
def execCall (addr : Nat) (s : State) : Host.Outcome State Fault Refusal :=
  match s.push s.pc with
  | .ok s' => .next (s'.setPC (absolute addr))
  | .error kind => .next (s.raise kind (encode (.call addr)) 0)

/-- JP V0,addr (R123). -/
def execJpV0 (addr : Nat) (s : State) : Host.Outcome State Fault Refusal := .next (s.setPC (s.v0Target addr))

end Sys2Proof.Machine
end

