-- ==== Sys2Proof/Machine/Composer.lean ====
section
/-! DEFINITION. The frame-buffer composer (46_framebuffer.md R191 to R196, R198, R200, R201) and the pixel mapping
(10_state.md R30). Linear wrap only (log entry 21). -/

namespace Sys2Proof.Machine

/-- The buffer with every byte 0 (R191). -/
def clearedFrame : Frame := Vector.replicate 256 0

/-- The byte index, before the wrap, on which row `r` of a sprite at (x, y) starts: base_r of R192. -/
def rowBase (x y r : Nat) : Nat := ((y + r) * 64 + x) / 8

/-- fb[j mod 256]: the linear wrap of R192. -/
def wrapIndex (j : Nat) : Fin 256 := ⟨j % 256, Nat.mod_lt _ (by decide)⟩

/-- The part of a row byte that lands on its first byte (R193). -/
def highPart (x : Nat) (b : Byte) : Byte := b >>> (x % 8)

/-- The bits that spill past the byte boundary (R193); 0 when the sprite is byte-aligned. -/
def lowPart (x : Nat) (b : Byte) : Byte := b <<< (8 - x % 8)

/-- XOR one part onto a byte of the buffer. -/
def xorByte (f : Frame) (j : Fin 256) (part : Byte) : Frame := f.set j.val (f[j.val] ^^^ part)

/-- Whether a part turns off a pixel: some bit is 1 in the old byte and in the part (R196). -/
def partHits (f : Frame) (j : Fin 256) (part : Byte) : Bool := f[j.val] &&& part != 0

/-- One sprite row: the buffer after its two XORs, and whether it collides (R195, R196). -/
def drawRow (x y r : Nat) (b : Byte) (f : Frame) : Frame × Bool :=
  let i0 := wrapIndex (rowBase x y r)
  let i1 := wrapIndex (rowBase x y r + 1)
  (xorByte (xorByte f i0 (highPart x b)) i1 (lowPart x b),
    partHits f i0 (highPart x b) || partHits f i1 (lowPart x b))

/-- The rows of a sprite from row `r` on, in order; the collision is the OR over the rows (R195). -/
def drawRows (x y : Nat) : Nat → List Byte → Frame → Frame × Bool
  | _, [], f => (f, false)
  | r, b :: rest, f =>
    let (f1, c1) := drawRow x y r b f
    let (f2, c2) := drawRows x y (r + 1) rest f1
    (f2, c1 || c2)

/-- `draw(sprite, x, y)` (R195): the buffer after it and the collision. -/
def draw (sprite : List Byte) (x y : Nat) (f : Frame) : Frame × Bool := drawRows x y 0 sprite f

/-! ## What the host sees (R30, R198) -/

/-- The pixel at linear index p, most significant bit first in each byte (R30): row p div 64, column p mod 64. -/
def framePixel (f : Frame) (p : Nat) : Bool := f[(wrapIndex (p / 8)).val].getLsbD (7 - p % 8)

/-- The pixel at column c and row w (R30). -/
def State.pixel (s : State) (c w : Nat) : Bool := framePixel s.fb (w * 64 + c)

/-- `getPixels()`: the 256 bytes (R198). -/
def State.getPixels (s : State) : List Byte := s.fb.toList

end Sys2Proof.Machine
end

