-- ==== Sys2Proof/Machine/Display.lean ====
section
/-! DEFINITION. CLS and DRW (46_framebuffer.md R190, R194). -/

namespace Sys2Proof.Machine

/-- CLS (R190). -/
def execCls (s : State) : Host.Outcome State Fault Refusal := .next ((s.setFb clearedFrame).emit .drew)

/-- DRW Vx,Vy,n (R194): the coordinates are the pre-state V[X] and V[Y], not reduced. -/
def execDrw (x y : Reg) (n : Nat) (s : State) : Host.Outcome State Fault Refusal :=
  match s.memRead s.base n with
  | .ok sprite =>
    let (fb, c) := draw sprite (s.getV x).toNat (s.getV y).toNat s.fb
    .next (((s.setFb fb).setV vF (collisionFlag c)).emit .drew)
  | .error addr => .next (s.raise .memoryFault (encode (.drw x y n)) addr)

end Sys2Proof.Machine
end

