-- ==== Sys2Proof/Machine/IndexMemory.lean ====
section
/-! DEFINITION. The index register and the memory transfers (44_index_memory.md R160 to R166). I is never modified by an
access. Multi-byte accesses are all-or-nothing (20_memory.md R58). -/

namespace Sys2Proof.Machine

/-- LD I,addr (R160). -/
def execLdI (addr : Nat) (s : State) : Host.Outcome State Fault Refusal := .next (s.setI (absolute addr))

/-- ADD I,Vx (R161): it faults rather than wrap, and writes no flag. -/
def execAddI (x : Reg) (s : State) : Host.Outcome State Fault Refusal :=
  if s.indexSum x < memSize then .next (s.setI (BitVec.ofNat 16 (s.indexSum x)))
  else .next (s.raise .memoryFault (encode (.addI x)) (s.indexSum x))

/-- LD F,Vx (R162). -/
def execLdF (x : Reg) (s : State) : Host.Outcome State Fault Refusal := .next (s.setI (s.glyphAddress x))

/-- LD B,Vx (R163). -/
def execLdB (x : Reg) (s : State) : Host.Outcome State Fault Refusal :=
  match s.memWrite s.base (decimalDigits (s.getV x)) with
  | .ok s' => .next s'
  | .error addr => .next (s.raise .memoryFault (encode (.ldB x)) addr)

/-- LD [I],Vx (R164). -/
def execStoreRegs (x : Reg) (s : State) : Host.Outcome State Fault Refusal :=
  match s.memWrite s.base (s.regsUpTo x) with
  | .ok s' => .next s'
  | .error addr => .next (s.raise .memoryFault (encode (.storeRegs x)) addr)

/-- LD Vx,[I] (R165). -/
def execLoadRegs (x : Reg) (s : State) : Host.Outcome State Fault Refusal :=
  match s.memRead s.base (x.val + 1) with
  | .ok bytes => .next (s.setRegsUpTo x (fun k => bytes.getD k 0))
  | .error addr => .next (s.raise .memoryFault (encode (.loadRegs x)) addr)

end Sys2Proof.Machine
end

