-- ==== Sys2Proof/Machine/Skips.lean ====
section
/-! DEFINITION. The conditional skips (42_conditional_skips.md R130 to R137). Each runs with PC = pc0 + 2. -/

namespace Sys2Proof.Machine

/-- SE Vx,byte (R130). -/
def execSeByte (x : Reg) (nn : Byte) (s : State) : Host.Outcome State Fault Refusal :=
  .next (s.skipIf (s.getV x == nn))

/-- SNE Vx,byte (R131). -/
def execSneByte (x : Reg) (nn : Byte) (s : State) : Host.Outcome State Fault Refusal :=
  .next (s.skipIf (s.getV x != nn))

/-- SE Vx,Vy (R132). -/
def execSeReg (x y : Reg) (s : State) : Host.Outcome State Fault Refusal :=
  .next (s.skipIf (s.getV x == s.getV y))

/-- SNE Vx,Vy (R133). -/
def execSneReg (x y : Reg) (s : State) : Host.Outcome State Fault Refusal :=
  .next (s.skipIf (s.getV x != s.getV y))

/-- SKP Vx (R134): the key query is one draw. -/
def execSkp (x : Reg) (s : State) : Host.Outcome State Fault Refusal :=
  .next (s.tookDraw.skipIf (s.drawKey (s.getV x)))

/-- SKNP Vx (R135): the key query is one draw. -/
def execSknp (x : Reg) (s : State) : Host.Outcome State Fault Refusal :=
  .next (s.tookDraw.skipIf (!s.drawKey (s.getV x)))

end Sys2Proof.Machine
end

