-- ==== Sys2Proof/Machine/TimersKeys.lean ====
section
/-! DEFINITION. The timer instructions and the key wait (45_timers_keys.md R170 to R173), and the sound output (R177). The
host's side of both stands in Transactions.lean. -/

namespace Sys2Proof.Machine

/-- LD Vx,DT (R170). -/
def execLdVxDT (x : Reg) (s : State) : Host.Outcome State Fault Refusal := .next (s.setV x s.dt)

/-- LD DT,Vx (R171). -/
def execLdDTVx (x : Reg) (s : State) : Host.Outcome State Fault Refusal := .next (s.setDT (s.getV x))

/-- LD ST,Vx (R172). -/
def execLdSTVx (x : Reg) (s : State) : Host.Outcome State Fault Refusal := .next (s.setST (s.getV x))

/-- LD Vx,K (R173): V[X] is not written until a key is delivered. -/
def execLdVxK (x : Reg) (s : State) : Host.Outcome State Fault Refusal :=
  .next ((s.setRun (.waitingForKey x)).emit (.awaitingKey x))

/-- `sound_on`, the level output ST ≠ 0 (R177). -/
def State.soundOn (s : State) : Bool := s.st != 0

end Sys2Proof.Machine
end

