-- ==== Sys2Proof/Machine/Cycle.lean ====
section
/-! DEFINITION. `cycle()` (40_machine_cycle.md R101, R102): fetch, advance, decode, execute. -/

namespace Sys2Proof.Machine

/-- The fetch of the two bytes at PC (R54, R55): the opcode, or the address MemoryFault records. -/
def State.fetch (s : State) : Except Nat Word :=
  match rangeFault s.pc.toNat 2 with
  | some addr => .error addr
  | none => .ok (wordOfBytes (s.readByte s.pc.toNat) (s.readByte (s.pc.toNat + 1)))

/-- Decode and execute a fetched opcode, PC already advanced (R101). -/
def executeWord (op : Word) (s : State) : Host.Outcome State Fault Refusal :=
  match decode op with
  | .ok i => exec i s
  | .error _ => .next (s.raise .unknownOpcode op 0)

/-- `cycle()`: one fetch-decode-execute step in Running (R101), a no-op in WaitingForKey and in Halted (R102; log entry
23). -/
def cycle (s : State) : Host.Outcome State Fault Refusal :=
  match s.run with
  | .running =>
    match s.fetch with
    | .ok op => executeWord op s.advancePC
    | .error addr => .next (s.raiseFetch addr)
  | .waitingForKey _ => .next s
  | .halted _ => .next s

end Sys2Proof.Machine
end

