-- ==== Sys2Proof/Machine/Transactions.lean ====
section
/-! DEFINITION. The host's transactions (40_machine_cycle.md R100), each one atomic step, and their schedule (R109); what
the host reads between steps; the placing of an instruction for the next step. -/

namespace Sys2Proof.Machine

/-- A timer's decrement, floored at 0 (R176). -/
def countDown (b : Byte) : Byte := if b = 0 then 0 else b - 1

/-- `tick()` (R176): valid in every run state. -/
def State.tick (s : State) : State := { s with dt := countDown s.dt, st := countDown s.st }

/-- `load(image)` (R108): the image goes to 0x200, everything above it is zeroed, the image is recorded; nothing else
changes. An image longer than 3584 bytes is refused. Log entry 15. -/
def load (image : List Byte) (s : State) : Host.Outcome State Fault Refusal :=
  if image.length ≤ maxImageLength then
    .next { s with
      mem := Memory.writeList s.cfg (s.mem.filter fun p => p.1 < programBase) programBase image
      image := image }
  else .refused (.imageTooLong image.length)

/-- `deliverKey(k)` (R174): it resolves a pending LD Vx,K and has no effect otherwise; a code above 15 is refused. Log
entry 16. -/
def deliverKey (k : Nat) (s : State) : Host.Outcome State Fault Refusal :=
  if k < 16 then
    match s.run with
    | .waitingForKey x => .next ((s.setV x (BitVec.ofNat 8 k)).setRun .running)
    | .running => .next s
    | .halted _ => .next s
  else .refused (.keyCodeOutOfRange k)

/-- The key-input collaborator's own key state changes (R137). It is no transaction of the core: nothing of the core
changes. Log entry 2. -/
def State.setKeys (s : State) (keys : Vector Bool 16) : State := { s with keys := keys }

/-- The effect of one transaction. -/
def transact (t : Transaction) (s : State) : Host.Outcome State Fault Refusal :=
  match t with
  | .cycle => cycle s
  | .tick => .next s.tick
  | .reset => .next s.hostReset
  | .load image => load image s
  | .deliverKey k => deliverKey k s
  | .setKeys keys => .next (s.setKeys keys)

/-- The transaction the host applies next: the first of its schedule, `cycle()` when it lists none (R109; log entry 7). -/
def State.nextTransaction (s : State) : Transaction := s.schedule.headD .cycle

/-- One step of the machine and its host: the next transaction, taken off the schedule. -/
def hostStep (s : State) : Host.Outcome State Fault Refusal :=
  transact s.nextTransaction { s with schedule := s.schedule.tail }

/-- The numeric code of an error kind on the `status` output (R211). -/
def ErrorKind.code : ErrorKind → Nat
  | .unknownOpcode => 1
  | .stackOverflow => 2
  | .stackUnderflow => 3
  | .memoryFault => 4

/-- The error code `status` shows: 0, which names no error, unless Halted (R211). -/
def State.statusCode (s : State) : Nat :=
  match s.run with
  | .halted err => err.kind.code
  | .running => 0
  | .waitingForKey _ => 0

/-- The state with an opcode placed where the next step fetches: the run state is Running, the next transaction is a cycle,
PC is one a fetch may use, and the two bytes stand at it. Log entry 24. -/
def State.placeWord (s : State) (op : Word) : State :=
  let pc : Word := if rangeFault s.pc.toNat 2 = none then s.pc else 0x200
  { s with
    pc := pc
    run := .running
    schedule := if s.nextTransaction = .cycle then s.schedule else .cycle :: s.schedule
    mem := Memory.writeList s.cfg s.mem pc.toNat (bytesOfWord op) }

end Sys2Proof.Machine
end

