-- ==== Sys2Proof/Machine/Step.lean ====
section
/-! DEFINITION. One step of the machine: the next transaction of the host's schedule, `cycle()` when it lists none
(40_machine_cycle.md R100, R109). -/

namespace Sys2Proof.Machine

/-- One step. -/
def step (s : State) : Host.Outcome State Fault Refusal := hostStep s

/-- The state in which the very next step fetches and runs the instruction whose bits are `w`. -/
def State.withFetchWord (s : State) (nbits w : Nat) : State := s.placeWord (tableWord nbits w)

end Sys2Proof.Machine
end

