-- ==== Sys2Proof/Safety.lean ====
section
/-! DEFINITION. The terms claims are stated in: what an instruction leaves unchanged, the invariant every step keeps, the
changes of the run state and when errors are raised, the end of a run. -/

namespace Sys2Proof

open Sys2Proof.Machine

/-! ## Frames (00_scope.md R13) -/

/-- The parts of a State beside the general registers. -/
inductive Part where
  | i | pc | sp | stack | dt | st | mem | fb | run | image | cfg | draws | keys | events | schedule
  deriving DecidableEq, Repr

/-- A part is the same in both states. Memory is compared through the model's read of one byte, at every address. -/
def Part.same (p : Part) (s t : State) : Prop :=
  match p with
  | .i => t.i = s.i
  | .pc => t.pc = s.pc
  | .sp => t.sp = s.sp
  | .stack => t.stack = s.stack
  | .dt => t.dt = s.dt
  | .st => t.st = s.st
  | .mem => ∀ a, t.readByte a = s.readByte a
  | .fb => t.fb = s.fb
  | .run => t.run = s.run
  | .image => t.image = s.image
  | .cfg => t.cfg = s.cfg
  | .draws => t.draws = s.draws
  | .keys => t.keys = s.keys
  | .events => t.events = s.events
  | .schedule => t.schedule = s.schedule

/-- From `s` to `t` nothing changes but the named registers and the named parts. -/
def OnlyChanges (regs : List Reg) (parts : List Part) (s t : State) : Prop :=
  (∀ r, r ∉ regs → t.getV r = s.getV r) ∧ ∀ p, p ∉ parts → p.same s t

/-- The general registers an instruction's rule lists as written (R13, R34). -/
def Instr.writtenRegs : Instr → List Reg
  | .cls => []
  | .ret => []
  | .jp _ => []
  | .call _ => []
  | .seByte _ _ => []
  | .sneByte _ _ => []
  | .seReg _ _ => []
  | .ldByte x _ => [x]
  | .addByte x _ => [x]
  | .ldReg x _ => [x]
  | .orReg x _ => [x]
  | .andReg x _ => [x]
  | .xorReg x _ => [x]
  | .addReg x _ => [x, vF]
  | .subReg x _ => [x, vF]
  | .shr x _ => [x, vF]
  | .subnReg x _ => [x, vF]
  | .shl x _ => [x, vF]
  | .sneReg _ _ => []
  | .ldI _ => []
  | .jpV0 _ => []
  | .rnd x _ => [x]
  | .drw _ _ _ => [vF]
  | .skp _ => []
  | .sknp _ => []
  | .ldVxDT x => [x]
  | .ldVxK _ => []
  | .ldDTVx _ => []
  | .ldSTVx _ => []
  | .addI _ => []
  | .ldF _ => []
  | .ldB _ => []
  | .storeRegs _ => []
  | .loadRegs x => (List.finRange 16).filter fun r => r.val ≤ x.val

/-- The other parts an instruction's rule lists as written, the run state and the events included where the rule can raise
an error, emit an event or wait (R13, R35, R107, R210). -/
def Instr.writtenParts : Instr → List Part
  | .cls => [.fb, .events]
  | .ret => [.pc, .sp, .run, .events]
  | .jp _ => [.pc]
  | .call _ => [.pc, .sp, .stack, .run, .events]
  | .seByte _ _ => [.pc]
  | .sneByte _ _ => [.pc]
  | .seReg _ _ => [.pc]
  | .ldByte _ _ => []
  | .addByte _ _ => []
  | .ldReg _ _ => []
  | .orReg _ _ => []
  | .andReg _ _ => []
  | .xorReg _ _ => []
  | .addReg _ _ => []
  | .subReg _ _ => []
  | .shr _ _ => []
  | .subnReg _ _ => []
  | .shl _ _ => []
  | .sneReg _ _ => [.pc]
  | .ldI _ => [.i]
  | .jpV0 _ => [.pc]
  | .rnd _ _ => [.draws]
  | .drw _ _ _ => [.fb, .run, .events]
  | .skp _ => [.pc, .draws]
  | .sknp _ => [.pc, .draws]
  | .ldVxDT _ => []
  | .ldVxK _ => [.run, .events]
  | .ldDTVx _ => [.dt]
  | .ldSTVx _ => [.st]
  | .addI _ => [.i, .run, .events]
  | .ldF _ => [.i]
  | .ldB _ => [.mem, .run, .events]
  | .storeRegs _ => [.mem, .run, .events]
  | .loadRegs _ => [.run, .events]

/-! ## Words and pixels -/

/-- A word, written as a number, decodes to the instruction. -/
def DecodesTo (w : Nat) (i : Instr) : Prop := decode (BitVec.ofNat 16 w) = .ok i

/-- The words R79 counts as legal, by leading nibble, trailing nibble and low byte. -/
def LegalWord (op : Word) : Prop :=
  match op.toNat / 4096 with
  | 0x0 => op = 0x00E0 ∨ op = 0x00EE
  | 0x5 => op.toNat % 16 = 0
  | 0x8 => op.toNat % 16 ≤ 7 ∨ op.toNat % 16 = 0xE
  | 0x9 => op.toNat % 16 = 0
  | 0xE => op.toNat % 256 ∈ [0x9E, 0xA1]
  | 0xF => op.toNat % 256 ∈ [0x07, 0x0A, 0x15, 0x18, 0x1E, 0x29, 0x33, 0x55, 0x65]
  | _ => True

/-- A 1 bit of the sprite drawn at (x, y) lands on the pixel with linear index `p`: pixel j of row r, j = 0 the leftmost,
lands on ((y + r)·64 + x + j) mod 2048 (46_framebuffer.md R200). -/
def SpriteCovers (sprite : List Byte) (x y p : Nat) : Prop :=
  ∃ r j, r < sprite.length ∧ j < 8 ∧ (sprite.getD r 0).getLsbD (7 - j) = true ∧ ((y + r) * 64 + x + j) % 2048 = p

/-! ## Errors (60_exceptions.md R210) -/

/-- `t` is `s` halted by an error that the instruction of word `op` raises: the record names the instruction at PC − 2 and
its word, the halted event is emitted, and nothing else changes. -/
def RaisesError (kind : ErrorKind) (op : Word) (addr : Nat) (s t : State) : Prop :=
  t.run = .halted { kind := kind, pc0 := s.pc - 2, opcode := op, addr := addr } ∧
  t.events = .halted { kind := kind, pc0 := s.pc - 2, opcode := op, addr := addr } :: s.events ∧
  OnlyChanges [] [.run, .events] s t

/-! ## The invariant -/

/-- What a halt record says, held against the state it stands in (R36, R101, R211): either the fetch at PC faulted, or PC
is past the faulting instruction and the record fits the kind. -/
def HaltConsistent (s : State) (err : HaltRecord) : Prop :=
  (err.kind = .memoryFault ∧ err.pc0 = s.pc ∧ err.opcode = 0 ∧ 0xFFF ≤ s.pc.toNat ∧ err.addr = max s.pc.toNat 0x1000) ∨
  (err.pc0.toNat ≤ 0xFFE ∧ s.pc = err.pc0 + 2 ∧
    match err.kind with
    | .unknownOpcode => err.addr = 0 ∧ decode err.opcode = .error (.unknownOpcode err.opcode)
    | .stackOverflow => err.addr = 0 ∧ s.sp = 16 ∧ leadingNibble err.opcode = 0x2
    | .stackUnderflow => err.addr = 0 ∧ s.sp = 0 ∧ err.opcode = 0x00EE
    | .memoryFault => 0x1000 ≤ err.addr ∧ err.addr ≤ 0x10FE)

/-- What every state of a run satisfies. -/
structure Inv (s : State) : Prop where
  /-- Memory keeps its canonical form. -/
  mem_wf : Memory.wf s.cfg s.mem
  /-- Under the policy `discard` the font bytes equal FONT (R32). -/
  font_intact : s.cfg.fontStorePolicy = .discard → ∀ a, (h : a < fontSize) → s.readByte a = s.cfg.font[a]
  /-- PC never passes 0x10FE (R23). -/
  pc_le : s.pc.toNat ≤ 0x10FE
  /-- I always holds 0 to 0xFFF (R24). -/
  i_le : s.i.toNat ≤ 0xFFF
  /-- CALL pushes at most 0x1000 (R23). -/
  stack_le : ∀ k : Fin 16, (s.stack[k.val]).toNat ≤ 0x1000
  /-- The image fits memory above 0x200 (R33). -/
  image_le : s.image.length ≤ maxImageLength
  /-- A halt record fits the state it stands in (R36). -/
  halt_consistent : ∀ err, s.run = .halted err → HaltConsistent s err

/-! ## The run state (40_machine_cycle.md R106) -/

/-- The bytes at PC are within memory and decode to the instruction. -/
def Fetches (s : State) (i : Instr) : Prop :=
  s.pc.toNat ≤ 0xFFE ∧ decodeBytes [s.readByte s.pc.toNat, s.readByte (s.pc.toNat + 1)] = .ok (i, [])

/-- The error an instruction raises in a state, as the column "raised by" of R211 and the instructions' own rules give it. -/
def Instr.errorOn (i : Instr) (s : State) : Option ErrorKind :=
  match i with
  | .ret => if s.sp = 0 then some .stackUnderflow else none
  | .call _ => if s.sp = 16 then some .stackOverflow else none
  | .addI x => if 0xFFF < s.i.toNat + (s.getV x).toNat then some .memoryFault else none
  | .ldB _ => if 0xFFF < s.i.toNat + 2 then some .memoryFault else none
  | .storeRegs x => if 0xFFF < s.i.toNat + x.val then some .memoryFault else none
  | .loadRegs x => if 0xFFF < s.i.toNat + x.val then some .memoryFault else none
  | .drw _ _ n => if 0 < n ∧ 0xFFF < s.i.toNat + n - 1 then some .memoryFault else none
  | .cls => none
  | .jp _ => none
  | .seByte _ _ => none
  | .sneByte _ _ => none
  | .seReg _ _ => none
  | .ldByte _ _ => none
  | .addByte _ _ => none
  | .ldReg _ _ => none
  | .orReg _ _ => none
  | .andReg _ _ => none
  | .xorReg _ _ => none
  | .addReg _ _ => none
  | .subReg _ _ => none
  | .shr _ _ => none
  | .subnReg _ _ => none
  | .shl _ _ => none
  | .sneReg _ _ => none
  | .ldI _ => none
  | .jpV0 _ => none
  | .rnd _ _ => none
  | .skp _ => none
  | .sknp _ => none
  | .ldVxDT _ => none
  | .ldVxK _ => none
  | .ldDTVx _ => none
  | .ldSTVx _ => none
  | .ldF _ => none

/-- A cycle of a running machine raises an error of this kind: the fetch faults (R54), the word fetched decodes to no
instruction (R212), or the instruction raises it (R211). -/
def CycleRaises (s : State) (kind : ErrorKind) : Prop :=
  (0xFFF ≤ s.pc.toNat ∧ kind = .memoryFault) ∨
  (s.pc.toNat ≤ 0xFFE ∧ (∀ i, ¬ Fetches s i) ∧ kind = .unknownOpcode) ∨
  ∃ i, Fetches s i ∧ i.errorOn s = some kind

/-- The changes of the run state in the table of R106, row by row, from `s` to `t` under the transaction `tr`. No other
exists. -/
def RunTransition (tr : Transaction) (s t : State) : Prop :=
  match tr, s.run with
  | .reset, _ => t.run = .running
  | .cycle, .running =>
    (∀ x, t.run = .waitingForKey x ↔ Fetches s (.ldVxK x)) ∧
    (∀ kind, (∃ err, t.run = .halted err ∧ err.kind = kind) ↔ CycleRaises s kind) ∧
    (t.run = .running ↔ (∀ x, ¬ Fetches s (.ldVxK x)) ∧ ∀ kind, ¬ CycleRaises s kind)
  | .deliverKey k, .waitingForKey x => t.run = .running ∧ (t.getV x).toNat = k
  | _, before => t.run = before

/-! ## Runs (40_machine_cycle.md R110) -/

/-- No error has halted the machine: the safe states. -/
def Safe (s : State) : Prop := ∀ err, s.run ≠ .halted err

/-- The end-of-run convention of R110: halted; or waiting for a key that the schedule does not deliver; or at a jump to
itself. -/
def RunEnded (s : State) : Prop :=
  (∃ err, s.run = .halted err) ∨
  (∃ x, s.run = .waitingForKey x ∧ ∀ k, Transaction.deliverKey k ∉ s.schedule) ∨
  (s.run = .running ∧ ∃ op, s.fetch = .ok op ∧ decode op = .ok (.jp s.pc.toNat))

end Sys2Proof
end

