-- ==== Sys2Proof/Certificates/Slice0/Obligations.lean ====
section
/-! DEFINITION. The statements for the provers. Each docstring names the rule of spec/ it formalises, and the log entry where
it rests on a convention. -/

open Sys2Proof Sys2Proof.Machine

/-! ## Encoding -/

/-- Words of every format, taken from the spec's own decode vectors, decode to the instruction listed beside them or to
UnknownOpcode (after 95_test_vectors.md 2.2). The patterns rest on log entry 4, the Y that SHR carries on log entry 27. -/
def Obligations.SpecWordsDecode : Prop :=
  DecodesTo 0x00E0 .cls ∧ DecodesTo 0x00EE .ret ∧ DecodesTo 0x1ABC (.jp 0xABC) ∧ DecodesTo 0x2FFF (.call 0xFFF) ∧
  DecodesTo 0x3A7F (.seByte 10 0x7F) ∧ DecodesTo 0x4000 (.sneByte 0 0x00) ∧ DecodesTo 0x5AB0 (.seReg 10 11) ∧
  DecodesTo 0x8AB6 (.shr 10 11) ∧ DecodesTo 0x9AB0 (.sneReg 10 11) ∧ DecodesTo 0xBFFF (.jpV0 0xFFF) ∧
  DecodesTo 0xC3FF (.rnd 3 0xFF) ∧ DecodesTo 0xD12F (.drw 1 2 15) ∧ DecodesTo 0xE3A1 (.sknp 3) ∧
  DecodesTo 0xF30A (.ldVxK 3) ∧ DecodesTo 0xFF65 (.loadRegs 15) ∧
  decode 0x0000 = .error (.unknownOpcode 0x0000) ∧ decode 0x00E1 = .error (.unknownOpcode 0x00E1) ∧
  decode 0x5AB1 = .error (.unknownOpcode 0x5AB1) ∧ decode 0x8AB8 = .error (.unknownOpcode 0x8AB8) ∧
  decode 0xE307 = .error (.unknownOpcode 0xE307) ∧ decode 0xF3A1 = .error (.unknownOpcode 0xF3A1)

/-- Decode and encode agree: for every well-formed instruction, with every operand at every value, decoding its word gives
it back, and decoding its bytes before any others gives it back and leaves the others. That SHR and SHL have a Y operand, which
they ignore, is the MODEL'S CHOICE, log entry 27. -/
def Obligations.DecodeOfEncode : Prop :=
  ∀ i : Instr, i.wellFormed = true →
    decode (encode i) = .ok i ∧ ∀ rest, decodeBytes (encodeBytes i ++ rest) = .ok (i, rest)

/-- The other direction: a word that decodes decodes to a well-formed instruction, whose encoding is that word. So no bit
of a legal word is dropped. For SHR and SHL (8XY6, 8XYE) this is the MODEL'S CHOICE, log entry 27: `Instr.shr` and `Instr.shl`
carry the Y field, which R78 says is ignored and R81 assembles as 0. -/
def Obligations.EncodeOfDecode : Prop :=
  ∀ (op : Word) (i : Instr), decode op = .ok i → i.wellFormed = true ∧ encode i = op

/-- Exactly the words R79 lists as legal decode; every other word is rejected as UnknownOpcode, with the word (after R79,
R75). Log entries 4 and 20. -/
def Obligations.ExactlyTheLegalWordsDecode : Prop :=
  ∀ op : Word, (LegalWord op → ∃ i, decode op = .ok i) ∧ (¬ LegalWord op → decode op = .error (.unknownOpcode op))

/-- R76: no two rows of the table share a masked value, each row's value is unchanged by its own mask, and so every word
decodes to exactly one InstructionId, that of the one row whose value its masked word is, or, matching no row, to
UnknownOpcode. -/
def Obligations.TableRowsAreDistinct : Prop :=
  (decodeTable.map Prod.fst).Nodup ∧ (decodeTable.map Prod.snd).Nodup ∧
  (∀ row ∈ decodeTable, row.1 &&& maskOf row.1 = row.1) ∧
  ∀ op : Word,
    (∃ row ∈ decodeTable, row.1 = op &&& maskOf op ∧ ∃ i, decode op = .ok i ∧ i.id = row.2) ∨
    ((∀ row ∈ decodeTable, row.1 ≠ op &&& maskOf op) ∧ decode op = .error (.unknownOpcode op))

/-- The decoder's ports: the five fields are the word's bit slices, whatever the word decodes to, and `unknown` says that it
decodes to no instruction (after R71, R75, R80). -/
def Obligations.DecoderPortsAreBitSlices : Prop :=
  ∀ op : Word,
    (decoder op).fields.x.val = (op.extractLsb' 8 4).toNat ∧ (decoder op).fields.y.val = (op.extractLsb' 4 4).toNat ∧
    (decoder op).fields.n = (op.extractLsb' 0 4).toNat ∧ (decoder op).fields.nn = op.extractLsb' 0 8 ∧
    (decoder op).fields.nnn = (op.extractLsb' 0 12).toNat ∧
    ((decoder op).unknown = true ↔ decode op = .error (.unknownOpcode op))

/-! ## The machine cycle -/

/-- A step runs the decoded instruction: Running, the host's next transaction a cycle, and the two bytes at PC decoding to
`i`, the step is `exec i` with PC advanced by 2 and the transaction taken off the schedule (after R101). -/
def Obligations.StepRunsTheDecodedInstruction : Prop :=
  ∀ (s : State) (i : Instr), s.run = .running → s.nextTransaction = .cycle → s.pc.toNat + 1 ≤ 0xFFF →
    decodeBytes [s.readByte s.pc.toNat, s.readByte (s.pc.toNat + 1)] = .ok (i, []) →
    step s = exec i { s with pc := s.pc + 2, schedule := s.schedule.tail }

/-- A step on two bytes that decode to no instruction halts with UnknownOpcode: PC keeps the fetch advance, the record names
the instruction's address and word, halted is emitted with that record, the cycle is taken off the schedule, and nothing else
changes (after R101, R107, R210, R212). Log entries 4, 8, 11 and 20. -/
def Obligations.StepHaltsOnUnknownOpcode : Prop :=
  ∀ (s : State) (op : Word), s.run = .running → s.nextTransaction = .cycle → s.pc.toNat + 1 ≤ 0xFFF →
    op.toNat = (s.readByte s.pc.toNat).toNat * 256 + (s.readByte (s.pc.toNat + 1)).toNat → ¬ LegalWord op →
    ∃ t, step s = .next t ∧ t.run = .halted { kind := .unknownOpcode, pc0 := s.pc, opcode := op, addr := 0 } ∧
      t.events = .halted { kind := .unknownOpcode, pc0 := s.pc, opcode := op, addr := 0 } :: s.events ∧
      t.pc = s.pc + 2 ∧ t.schedule = s.schedule.tail ∧
      OnlyChanges [] [.pc, .run, .events, .schedule] s t

/-- A fetch at 0xFFF or above faults as a whole: MemoryFault with addr = max(PC, 0x1000), opcode 0, PC not advanced, halted
emitted with that record, the cycle taken off the schedule, nothing else changed (after R54, R101, R107, R210). Log entries 8,
11 and 17. -/
def Obligations.StepFaultsOutsideMemory : Prop :=
  ∀ s : State, s.run = .running → s.nextTransaction = .cycle → 0xFFF ≤ s.pc.toNat →
    ∃ t, step s = .next t ∧
      t.run = .halted { kind := .memoryFault, pc0 := s.pc, opcode := 0, addr := max s.pc.toNat 0x1000 } ∧
      t.events = .halted { kind := .memoryFault, pc0 := s.pc, opcode := 0, addr := max s.pc.toNat 0x1000 } :: s.events ∧
      t.schedule = s.schedule.tail ∧ OnlyChanges [] [.run, .events, .schedule] s t

/-- The fetch takes the byte at PC as the more significant one (after R54, R55). Log entry 3. -/
def Obligations.FetchIsBigEndian : Prop :=
  ∀ s : State, s.pc.toNat + 1 ≤ 0xFFF →
    ∃ op, s.fetch = .ok op ∧ op.toNat = (s.readByte s.pc.toNat).toNat * 256 + (s.readByte (s.pc.toNat + 1)).toNat

/-- `cycle()` outside Running changes no state and emits nothing (after R102). Log entry 23 for Halted. -/
def Obligations.CycleIdlesOutsideRunning : Prop :=
  ∀ s : State, s.run ≠ .running → cycle s = .next s

/-- Every cycle, of every state, answers a next state: no instruction and no error stops the machine in a fault or a
refusal (after R101, R210). Log entry 22. -/
def Obligations.EveryCycleCompletes : Prop :=
  ∀ s : State, ∃ t, cycle s = .next t

/-- The run state changes exactly as the table of R106 says, row by row. Under a cycle in Running it becomes
WaitingForKey(x) exactly when the word fetched decodes to LD Vx,K for x, Halted with an error of a kind exactly when the
fetch, the decoding or the instruction raises an error of that kind, and stays Running otherwise. A delivery in
WaitingForKey(x) of k gives Running with V[x] = k, `reset()` gives Running, and every other transaction leaves the run state.
Where errors are raised rests on log entries 17 and 18, which words decode on log entry 4, cycles in Halted on log entry 23,
deliveries outside a wait on log entry 16. -/
def Obligations.RunStateChangesAsTabled : Prop :=
  ∀ s t : State, step s = .next t → RunTransition s.nextTransaction s t

/-- LD Vx,K is the only instruction that suspends execution, and it waits for its own register (after R217, R226). -/
def Obligations.OnlyKeyWaitSuspends : Prop :=
  ∀ (i : Instr) (s t : State) (x : Reg), s.run = .running → exec i s = .next t → t.run = .waitingForKey x → i = .ldVxK x

/-- Errors are precise: an instruction that halts the machine leaves everything as it was but the run state and the event,
and the halt record names the instruction at PC − 2 and its word (after R210, R218). Log entries 10 and 11. -/
def Obligations.ErrorsArePrecise : Prop :=
  ∀ (i : Instr) (s t : State) (err : HaltRecord), s.run = .running → exec i s = .next t → t.run = .halted err →
    RaisesError err.kind (encode i) err.addr s t

/-- Only `reset()` leaves Halted. Under any other transaction the record stays, no register, PC, SP, stack slot or frame
byte changes, and the timers alone still count, `load` still loads (after R219). -/
def Obligations.OnlyResetLeavesHalted : Prop :=
  ∀ (s t : State) (err : HaltRecord), s.run = .halted err → s.nextTransaction ≠ .reset → step s = .next t →
    OnlyChanges [] [.dt, .st, .mem, .image, .keys, .schedule] s t ∧
    (s.nextTransaction ≠ .tick → t.dt = s.dt ∧ t.st = s.st) ∧
    ((∀ image, s.nextTransaction ≠ .load image) → t.image = s.image ∧ ∀ a, t.readByte a = s.readByte a)

/-- Completeness of effects, for every instruction and every state: an instruction writes only the registers and the parts
its rule lists (after R13, R34, R35). -/
def Obligations.InstructionsWriteOnlyWhatTheirRulesList : Prop :=
  ∀ (i : Instr) (s t : State), exec i s = .next t → OnlyChanges i.writtenRegs i.writtenParts s t

/-- The events: CLS and DRW emit `drew`, LD Vx,K emits `awaitingKey`, an instruction that halts emits `halted` with its
record, and no instruction emits anything else (after R107). Log entry 8. -/
def Obligations.InstructionsEmitTheirEvents : Prop :=
  ∀ (i : Instr) (s t : State), s.run = .running → exec i s = .next t →
    (∀ err, t.run = .halted err → t.events = .halted err :: s.events) ∧
    ((∀ err, t.run ≠ .halted err) →
      t.events = match i with
        | .cls => .drew :: s.events
        | .drw _ _ _ => .drew :: s.events
        | .ldVxK x => .awaitingKey x :: s.events
        | _ => s.events)

/-! ## Control transfer -/

/-- RET: PC takes the top of the stack, SP falls by one, the slot keeps its value (after R120, R125). Log entry 13. -/
def Obligations.RetPopsTheReturnAddress : Prop :=
  ∀ s : State, (h : 0 < s.sp.val) →
    ∃ t, exec .ret s = .next t ∧ t.sp.val = s.sp.val - 1 ∧ t.pc = s.stack[s.sp.val - 1]'(by omega) ∧
      OnlyChanges [] [.pc, .sp] s t

/-- R214: RET with SP = 0 raises StackUnderflow, before any write. -/
def Obligations.RetUnderflowsAtZero : Prop :=
  ∀ s : State, s.sp = 0 →
    ∃ t err, exec .ret s = .next t ∧ t.run = .halted err ∧ err.kind = .stackUnderflow ∧
      OnlyChanges [] [.run, .events] s t

/-- JP addr and JP V0,addr: PC takes NNN, or NNN + V0 up to 0x10FE, with no check (after R121, R123). Log entry 18. -/
def Obligations.JumpsSetPC : Prop :=
  ∀ (addr : Nat) (s : State), addr ≤ 0xFFF →
    (∃ t, exec (.jp addr) s = .next t ∧ t.pc.toNat = addr ∧ OnlyChanges [] [.pc] s t) ∧
    (∃ t, exec (.jpV0 addr) s = .next t ∧ t.pc.toNat = addr + (s.getV 0).toNat ∧ OnlyChanges [] [.pc] s t)

/-- CALL addr: the advanced PC goes to stack[SP], SP rises by one, PC takes NNN; every other slot keeps its value (after
R122, R124). Log entry 13. -/
def Obligations.CallPushesTheReturnAddress : Prop :=
  ∀ (addr : Nat) (s : State), addr ≤ 0xFFF → s.sp.val < 16 →
    ∃ t, exec (.call addr) s = .next t ∧ t.sp.val = s.sp.val + 1 ∧ t.pc.toNat = addr ∧
      (∀ k : Fin 16, t.stack[k.val] = if k.val = s.sp.val then s.pc else s.stack[k.val]) ∧
      OnlyChanges [] [.pc, .sp, .stack] s t

/-- R213: CALL with SP = 16 raises StackOverflow, before any write; with 16 levels it is raised at no other SP, so that
the 17th nested CALL raises it. -/
def Obligations.CallOverflowsAtSixteen : Prop :=
  ∀ (addr : Nat) (s : State), s.run = .running →
    (s.sp = 16 → ∃ t err, exec (.call addr) s = .next t ∧ t.run = .halted err ∧ err.kind = .stackOverflow ∧
      OnlyChanges [] [.run, .events] s t) ∧
    (s.sp ≠ 16 → ∃ t, exec (.call addr) s = .next t ∧ t.run = .running ∧ t.sp.val = s.sp.val + 1)

/-- The round trip of CALL and RET, for any of the 16 levels: a CALL whose target holds a RET is back at the word after it
in two steps, SP as before (after R126). -/
def Obligations.CallThenRetReturns : Prop :=
  ∀ (s : State) (addr : Nat), s.run = .running → s.schedule = [] → s.pc.toNat + 1 ≤ 0xFFF → addr + 1 ≤ 0xFFF →
    s.sp.val < 16 →
    decodeBytes [s.readByte s.pc.toNat, s.readByte (s.pc.toNat + 1)] = .ok (.call addr, []) →
    s.readByte addr = 0x00 → s.readByte (addr + 1) = 0xEE →
    ∃ t, core.run 2 s = .next t ∧ t.pc = s.pc + 2 ∧ t.sp = s.sp ∧ OnlyChanges [] [.pc, .stack] s t

/-! ## Conditional skips -/

/-- SE Vx,byte and SNE Vx,byte (after R130, R131): one more word is skipped exactly when V[X] is, or is not, NN; nothing but
PC changes. The words are those of log entry 4. -/
def Obligations.SkipsOnByte : Prop :=
  ∀ (x : Reg) (nn : Byte) (s : State),
    DecodesTo (0x3000 + x.val * 0x100 + nn.toNat) (.seByte x nn) ∧
    DecodesTo (0x4000 + x.val * 0x100 + nn.toNat) (.sneByte x nn) ∧
    (∃ t, exec (.seByte x nn) s = .next t ∧ t.pc = (if s.getV x = nn then s.pc + 2 else s.pc) ∧
      OnlyChanges [] [.pc] s t) ∧
    (∃ t, exec (.sneByte x nn) s = .next t ∧ t.pc = (if s.getV x = nn then s.pc else s.pc + 2) ∧
      OnlyChanges [] [.pc] s t)

/-- SE Vx,Vy and SNE Vx,Vy (after R132, R133): one more word is skipped exactly when the registers are equal, or differ;
with X = Y always and never; nothing but PC changes; the other trailing nibbles decode to no instruction. The words are those
of log entry 4. -/
def Obligations.SkipsOnRegister : Prop :=
  ∀ (x y : Reg) (s : State),
    DecodesTo (0x5000 + x.val * 0x100 + y.val * 0x10) (.seReg x y) ∧
    DecodesTo (0x9000 + x.val * 0x100 + y.val * 0x10) (.sneReg x y) ∧
    (∀ n, 0 < n → n < 16 → ∀ i, ¬ DecodesTo (0x5000 + x.val * 0x100 + y.val * 0x10 + n) i ∧
      ¬ DecodesTo (0x9000 + x.val * 0x100 + y.val * 0x10 + n) i) ∧
    (∃ t, exec (.seReg x y) s = .next t ∧ t.pc = (if s.getV x = s.getV y then s.pc + 2 else s.pc) ∧
      OnlyChanges [] [.pc] s t) ∧
    (∃ t, exec (.sneReg x y) s = .next t ∧ t.pc = (if s.getV x = s.getV y then s.pc else s.pc + 2) ∧
      OnlyChanges [] [.pc] s t)

/-- SKP Vx and SKNP Vx complete in every state. The key query is one draw, of the code V[X] unmasked; one more word is
skipped exactly on its answer, or on its negation; nothing but PC and the draw counter changes (after R134, R135, R137). The
answer is the host's key state for a code 0 to 15, and the free value of this draw and this code for a code 16 to 255: both
are the form of log entry 2, the counter that of log entry 9. -/
def Obligations.SkipsOnKey : Prop :=
  ∀ (x : Reg) (s : State),
    (∃ t, exec (.skp x) s = .next t ∧ t.pc = (if s.drawKey (s.getV x) = true then s.pc + 2 else s.pc) ∧
      t.draws = s.draws + 1 ∧ OnlyChanges [] [.pc, .draws] s t) ∧
    (∃ t, exec (.sknp x) s = .next t ∧ t.pc = (if s.drawKey (s.getV x) = true then s.pc else s.pc + 2) ∧
      t.draws = s.draws + 1 ∧ OnlyChanges [] [.pc, .draws] s t) ∧
    (∀ h : (s.getV x).toNat < 16, s.drawKey (s.getV x) = s.keys[(s.getV x).toNat]) ∧
    (16 ≤ (s.getV x).toNat → s.drawKey (s.getV x) = Config.keyPressed s.draws (s.getV x))

/-! ## Register loads, arithmetic and logic -/

/-- LD Vx,byte and LD Vx,Vy (after R140, R143): V[X] takes NN, or V[Y]; nothing else changes, VF as a flag included. The
words are those of log entry 4. -/
def Obligations.LoadsSetVx : Prop :=
  ∀ (x y : Reg) (nn : Byte) (s : State),
    DecodesTo (0x6000 + x.val * 0x100 + nn.toNat) (.ldByte x nn) ∧
    DecodesTo (0x8000 + x.val * 0x100 + y.val * 0x10) (.ldReg x y) ∧
    (∃ t, exec (.ldByte x nn) s = .next t ∧ t.getV x = nn ∧ OnlyChanges [x] [] s t) ∧
    (∃ t, exec (.ldReg x y) s = .next t ∧ t.getV x = s.getV y ∧ OnlyChanges [x] [] s t)

/-- ADD Vx,byte (after R141): the sum mod 256; no flag, VF unchanged unless X = F, which takes the sum. The word is that of
log entry 4. -/
def Obligations.AddByteWrapsWithoutFlag : Prop :=
  ∀ (x : Reg) (nn : Byte) (s : State),
    DecodesTo (0x7000 + x.val * 0x100 + nn.toNat) (.addByte x nn) ∧
    ∃ t, exec (.addByte x nn) s = .next t ∧ (t.getV x).toNat = ((s.getV x).toNat + nn.toNat) % 256 ∧
      OnlyChanges [x] [] s t

/-- OR, AND, XOR (after R144, R145, R146), bit by bit; VF is not reset. The words are those of log entry 4. -/
def Obligations.LogicIsBitwise : Prop :=
  ∀ (x y : Reg) (s : State),
    DecodesTo (0x8001 + x.val * 0x100 + y.val * 0x10) (.orReg x y) ∧
    DecodesTo (0x8002 + x.val * 0x100 + y.val * 0x10) (.andReg x y) ∧
    DecodesTo (0x8003 + x.val * 0x100 + y.val * 0x10) (.xorReg x y) ∧
    (∃ t, exec (.orReg x y) s = .next t ∧ OnlyChanges [x] [] s t ∧
      ∀ k, (t.getV x).getLsbD k = ((s.getV x).getLsbD k || (s.getV y).getLsbD k)) ∧
    (∃ t, exec (.andReg x y) s = .next t ∧ OnlyChanges [x] [] s t ∧
      ∀ k, (t.getV x).getLsbD k = ((s.getV x).getLsbD k && (s.getV y).getLsbD k)) ∧
    (∃ t, exec (.xorReg x y) s = .next t ∧ OnlyChanges [x] [] s t ∧
      ∀ k, (t.getV x).getLsbD k = ((s.getV x).getLsbD k ^^ (s.getV y).getLsbD k))

/-- ADD Vx,Vy: the sum mod 256 in V[X], also when X = F; else VF is the carry. The operands are the values before (after
R147). Log entry 12 for X = F. -/
def Obligations.AddRegCarries : Prop :=
  ∀ (x y : Reg) (s : State),
    ∃ t, exec (.addReg x y) s = .next t ∧ (t.getV x).toNat = ((s.getV x).toNat + (s.getV y).toNat) % 256 ∧
      (x ≠ vF → t.getV vF = if (s.getV x).toNat + (s.getV y).toNat > 255 then 1 else 0) ∧
      OnlyChanges [x, vF] [] s t

/-- SUB and SUBN: the difference mod 256 in V[X], also when X = F; else VF is 1 exactly when there is no borrow, equal
operands included (after R148, R150, R142). Log entry 12 for X = F. -/
def Obligations.SubtractionsBorrow : Prop :=
  ∀ (x y : Reg) (s : State),
    (∃ t, exec (.subReg x y) s = .next t ∧ (t.getV x).toNat = ((s.getV x).toNat + 256 - (s.getV y).toNat) % 256 ∧
      (x ≠ vF → t.getV vF = if (s.getV x).toNat ≥ (s.getV y).toNat then 1 else 0) ∧ OnlyChanges [x, vF] [] s t) ∧
    (∃ t, exec (.subnReg x y) s = .next t ∧ (t.getV x).toNat = ((s.getV y).toNat + 256 - (s.getV x).toNat) % 256 ∧
      (x ≠ vF → t.getV vF = if (s.getV y).toNat ≥ (s.getV x).toNat then 1 else 0) ∧ OnlyChanges [x, vF] [] s t)

/-- SHR and SHL move V[X] by one bit, whatever Y is; VF, unless X = F, is the bit shifted out (after R149, R151, R78). Log
entry 12 for X = F. -/
def Obligations.ShiftsMoveOneBit : Prop :=
  ∀ (x y : Reg) (s : State),
    (∃ t, exec (.shr x y) s = .next t ∧ (t.getV x).toNat = (s.getV x).toNat / 2 ∧
      (x ≠ vF → (t.getV vF).toNat = (s.getV x).toNat % 2) ∧ OnlyChanges [x, vF] [] s t) ∧
    (∃ t, exec (.shl x y) s = .next t ∧ (t.getV x).toNat = (s.getV x).toNat * 2 % 256 ∧
      (x ≠ vF → (t.getV vF).toNat = (s.getV x).toNat / 128) ∧ OnlyChanges [x, vF] [] s t)

/-- RND Vx,byte: V[X] takes the next draw, any byte, under the mask, and the draw is used up; VF is no flag (after R152).
The drawn byte is a free value, log entry 1. -/
def Obligations.RndMasksAFreshDraw : Prop :=
  ∀ (x : Reg) (nn : Byte) (s : State),
    ∃ t, exec (.rnd x nn) s = .next t ∧ t.getV x = Config.rnd s.draws &&& nn ∧ t.draws = s.draws + 1 ∧
      OnlyChanges [x] [.draws] s t

/-! ## The index register and memory -/

/-- LD I,addr and LD F,Vx: I takes NNN, or 5·V[X] with no mask on V[X] (after R160, R162). Log entry 19. -/
def Obligations.IndexLoads : Prop :=
  ∀ (addr : Nat) (x : Reg) (s : State), addr ≤ 0xFFF →
    (∃ t, exec (.ldI addr) s = .next t ∧ t.i.toNat = addr ∧ OnlyChanges [] [.i] s t) ∧
    (∃ t, exec (.ldF x) s = .next t ∧ t.i.toNat = 5 * (s.getV x).toNat ∧ OnlyChanges [] [.i] s t)

/-- ADD I,Vx up to 0xFFF: I takes the sum; VF is not written (after R161). -/
def Obligations.AddIAdvancesTheIndex : Prop :=
  ∀ (x : Reg) (s : State), s.i.toNat + (s.getV x).toNat ≤ 0xFFF →
    ∃ t, exec (.addI x) s = .next t ∧ t.i.toNat = s.i.toNat + (s.getV x).toNat ∧ OnlyChanges [] [.i] s t

/-- ADD I,Vx past 0xFFF raises MemoryFault with the sum as the address, I unchanged (after R161, R211). Log entries 10, 11
and 18. -/
def Obligations.AddIFaultsPastMemory : Prop :=
  ∀ (x : Reg) (s : State), 0xFFF < s.i.toNat + (s.getV x).toNat →
    ∃ t, exec (.addI x) s = .next t ∧
      RaisesError .memoryFault (BitVec.ofNat 16 (0xF01E + x.val * 0x100)) (s.i.toNat + (s.getV x).toNat) s t

/-- R52, R53: a read of one byte returns it, and a store of one byte lands, discarded below 0x050 under the policy
`discard`; at an address above 0xFFF each raises MemoryFault with that address, and neither changes anything else. -/
def Obligations.ByteAccessesCheckTheirAddress : Prop :=
  ∀ (s : State) (a : Nat) (v : Byte),
    s.memRead a 1 = (if a > 0xFFF then .error a else .ok [s.readByte a]) ∧
    (a > 0xFFF → s.memWrite a [v] = .error a) ∧
    (a ≤ 0xFFF → ∃ t, s.memWrite a [v] = .ok t ∧ OnlyChanges [] [.mem] s t ∧
      ∀ k, t.readByte k =
        if k = a ∧ ¬ (a ≤ 0x04F ∧ s.cfg.fontStorePolicy = .discard) then v else s.readByte k)

/-- LD B,Vx within memory: the three decimal digits of V[X] go to I, I + 1 and I + 2, each unless a discarded font store;
every other byte, I and the registers are unchanged (after R163, R56). Log entry 6. -/
def Obligations.LdBStoresTheDigits : Prop :=
  ∀ (x : Reg) (s : State), s.i.toNat + 2 ≤ 0xFFF →
    ∃ t, exec (.ldB x) s = .next t ∧ OnlyChanges [] [.mem] s t ∧
      (∀ a, a < s.i.toNat ∨ s.i.toNat + 2 < a ∨ s.storeDiscarded a = true → t.readByte a = s.readByte a) ∧
      (s.storeDiscarded s.i.toNat = false → (t.readByte s.i.toNat).toNat = (s.getV x).toNat / 100) ∧
      (s.storeDiscarded (s.i.toNat + 1) = false →
        (t.readByte (s.i.toNat + 1)).toNat = (s.getV x).toNat / 10 % 10) ∧
      (s.storeDiscarded (s.i.toNat + 2) = false → (t.readByte (s.i.toNat + 2)).toNat = (s.getV x).toNat % 10)

/-- LD [I],Vx within memory: V[k] goes to I + k for k = 0 to X, each unless a discarded font store; every other byte, I and
the registers are unchanged (after R164, R56). Log entry 6. -/
def Obligations.StoreRegsStoresV0ToVx : Prop :=
  ∀ (x : Reg) (s : State), s.i.toNat + x.val ≤ 0xFFF →
    ∃ t, exec (.storeRegs x) s = .next t ∧ OnlyChanges [] [.mem] s t ∧
      (∀ a, a < s.i.toNat ∨ s.i.toNat + x.val < a ∨ s.storeDiscarded a = true → t.readByte a = s.readByte a) ∧
      ∀ k : Reg, k.val ≤ x.val → s.storeDiscarded (s.i.toNat + k.val) = false →
        t.readByte (s.i.toNat + k.val) = s.getV k

/-- LD Vx,[I] within memory: V[k] takes the byte at I + k for k = 0 to X; I, the other registers and memory are unchanged
(after R165). -/
def Obligations.LoadRegsLoadsV0ToVx : Prop :=
  ∀ (x : Reg) (s : State), s.i.toNat + x.val ≤ 0xFFF →
    ∃ t, exec (.loadRegs x) s = .next t ∧
      (∀ k : Reg, t.getV k = if k.val ≤ x.val then s.readByte (s.i.toNat + k.val) else s.getV k) ∧
      OnlyChanges (List.finRange 16) [] s t

/-- Multi-byte accesses are all-or-nothing: when the range from I on reaches past 0xFFF, LD B, LD [I], LD Vx,[I] and DRW
with at least one row raise MemoryFault with the lowest address above 0xFFF, and nothing is read or written (after R58,
R163 to R165, R194). Log entries 10, 11 and 18. -/
def Obligations.TransfersFaultAsAWhole : Prop :=
  ∀ (x y : Reg) (n : Nat) (s : State),
    (0xFFF < s.i.toNat + 2 → ∃ t, exec (.ldB x) s = .next t ∧
      RaisesError .memoryFault (encode (.ldB x)) (max s.i.toNat 0x1000) s t) ∧
    (0xFFF < s.i.toNat + x.val → ∃ t, exec (.storeRegs x) s = .next t ∧
      RaisesError .memoryFault (encode (.storeRegs x)) (max s.i.toNat 0x1000) s t) ∧
    (0xFFF < s.i.toNat + x.val → ∃ t, exec (.loadRegs x) s = .next t ∧
      RaisesError .memoryFault (encode (.loadRegs x)) (max s.i.toNat 0x1000) s t) ∧
    (0 < n → 0xFFF < s.i.toNat + n - 1 → ∃ t, exec (.drw x y n) s = .next t ∧
      RaisesError .memoryFault (encode (.drw x y n)) (max s.i.toNat 0x1000) s t)

/-- A store is seen by the very next fetch: after LD [I],Vx over the two bytes at PC, the word fetched there is the two
registers stored (after R64). -/
def Obligations.StoresAreSeenByTheNextFetch : Prop :=
  ∀ (x k : Reg) (s t : State), s.i.toNat + x.val ≤ 0xFFF → s.pc.toNat = s.i.toNat + k.val → 0x050 ≤ s.pc.toNat →
    (hk : k.val + 1 ≤ x.val) → exec (.storeRegs x) s = .next t →
    t.fetch = .ok (wordOfBytes (s.getV k) (s.v[k.val + 1]'(by omega)))

/-! ## Timers and keys -/

/-- The timer instructions (after R170, R171, R172): LD Vx,DT reads the delay timer, LD DT,Vx and LD ST,Vx load their timer,
and ST ≠ 0 is the sound output; nothing else changes. The words are those of log entry 4. -/
def Obligations.TimerInstructions : Prop :=
  ∀ (x : Reg) (s : State),
    DecodesTo (0xF007 + x.val * 0x100) (.ldVxDT x) ∧ DecodesTo (0xF015 + x.val * 0x100) (.ldDTVx x) ∧
    DecodesTo (0xF018 + x.val * 0x100) (.ldSTVx x) ∧
    (∃ t, exec (.ldVxDT x) s = .next t ∧ t.getV x = s.dt ∧ OnlyChanges [x] [] s t) ∧
    (∃ t, exec (.ldDTVx x) s = .next t ∧ t.dt = s.getV x ∧ OnlyChanges [] [.dt] s t) ∧
    (∃ t, exec (.ldSTVx x) s = .next t ∧ t.st = s.getV x ∧ (t.soundOn = true ↔ s.getV x ≠ 0) ∧
      OnlyChanges [] [.st] s t)

/-- LD Vx,K: the machine waits for a key for V[X], which is not written, PC stays past the instruction, and the request is
emitted (after R173). Log entry 16: keys already held do not resolve the wait. -/
def Obligations.KeyWaitSuspends : Prop :=
  ∀ (x : Reg) (s : State),
    ∃ t, exec (.ldVxK x) s = .next t ∧ t.run = .waitingForKey x ∧ t.events = .awaitingKey x :: s.events ∧
      OnlyChanges [] [.run, .events] s t

/-- `deliverKey(k)`: a code 0 to 15 resolves a wait, writing the target register and nothing else, and has no effect in
Running and in Halted; a code above 15 is refused (after R174, R175). Log entry 16. -/
def Obligations.DeliverKeyResolvesAWait : Prop :=
  ∀ (k : Nat) (s : State),
    (k < 16 → ∀ x, s.run = .waitingForKey x →
      ∃ t, transact (.deliverKey k) s = .next t ∧ (t.getV x).toNat = k ∧ t.run = .running ∧
        OnlyChanges [x] [.run] s t) ∧
    (k < 16 → (∀ x, s.run ≠ .waitingForKey x) → transact (.deliverKey k) s = .next s) ∧
    (15 < k → transact (.deliverKey k) s = .refused (.keyCodeOutOfRange k))

/-- R176: `tick()`, in every run state, decrements each timer by 1, floored at 0, and changes nothing else. -/
def Obligations.TickCountsBothTimersDown : Prop :=
  ∀ s : State, ∃ t, transact .tick s = .next t ∧ t.dt.toNat = s.dt.toNat - 1 ∧ t.st.toNat = s.st.toNat - 1 ∧
    OnlyChanges [] [.dt, .st] s t

/-! ## The frame buffer -/

/-- CLS (R191): every frame-buffer byte, and so every pixel, is 0 after it; VF and the rest of the machine are unchanged,
the event trace apart. -/
def Obligations.ClsClearsEveryPixel : Prop :=
  ∀ s : State, ∃ t, exec .cls s = .next t ∧ (∀ j : Fin 256, t.fb[j.val] = 0) ∧
    (∀ c w, t.pixel c w = false) ∧ OnlyChanges [] [.fb, .events] s t

/-- DRW Vx,Vy,n within memory, pixel by pixel: sprite pixel j of row r, read from I + r, is XORed onto the pixel with linear
index ((V[Y] + r)·64 + V[X] + j) mod 2048, no other pixel changes, and VF is 1 exactly when some pixel went from on to off;
with n = 0 nothing is read (after R194 to R197, R200). -/
def Obligations.DrwXorsTheSpriteOntoPixels : Prop :=
  ∀ (x y : Reg) (n : Nat) (s : State), n ≤ 15 → n = 0 ∨ s.i.toNat + n - 1 ≤ 0xFFF →
    ∃ t, exec (.drw x y n) s = .next t ∧ OnlyChanges [vF] [.fb, .events] s t ∧
      (∀ p, p < 2048 →
        (framePixel t.fb p = !framePixel s.fb p ↔
          SpriteCovers ((List.range n).map fun r => s.readByte (s.i.toNat + r)) (s.getV x).toNat (s.getV y).toNat p)) ∧
      ((∃ p, p < 2048 ∧ framePixel s.fb p = true ∧ framePixel t.fb p = false) → t.getV vF = 1) ∧
      ((∀ p, p < 2048 → framePixel s.fb p = true → framePixel t.fb p = true) → t.getV vF = 0)

/-- The XOR self-inverse law: drawing a sprite twice at the same place restores the buffer, and the second draw collides
exactly when some 1 bit of the sprite lands on a pixel that was off before the first (after R199). -/
def Obligations.DrawTwiceRestoresTheFrame : Prop :=
  ∀ (sprite : List Byte) (x y : Nat) (f : Frame), sprite.length ≤ 15 →
    (draw sprite x y (draw sprite x y f).1).1 = f ∧
    ((draw sprite x y (draw sprite x y f).1).2 = true ↔
      ∃ p, p < 2048 ∧ SpriteCovers sprite x y p ∧ framePixel f p = false)

/-- R192, R193: where row r of a sprite at (x, y) lands and how its byte is split. With x a multiple of 8 the second part
is 0, so the second byte does not change. Bit 7, the leftmost pixel, lands at column x of the linear layout. -/
def Obligations.SpriteRowsSplitAtTheByte : Prop :=
  ∀ (x y r : Nat) (b : Byte) (f : Frame),
    (highPart x b).toNat = b.toNat / 2 ^ (x % 8) ∧
    (lowPart x b).toNat = b.toNat * 2 ^ (8 - x % 8) % 256 ∧
    (x % 8 = 0 → lowPart x b = 0) ∧
    (∀ j : Fin 256, (drawRow x y r b f).1[j.val] =
      if j.val = ((y + r) * 64 + x) / 8 % 256 then f[j.val] ^^^ highPart x b
      else if j.val = (((y + r) * 64 + x) / 8 + 1) % 256 then f[j.val] ^^^ lowPart x b
      else f[j.val]) ∧
    framePixel (drawRow x y r b f).1 ((y + r) * 64 + x) = (framePixel f ((y + r) * 64 + x) ^^ b.getLsbD 7)

/-- Within one DRW no two parts land on the same byte: the two bytes of any two rows of at most 15 are all different (after
R197). -/
def Obligations.SpritePartsLandApart : Prop :=
  ∀ x y r r' : Nat, r ≤ 14 → r' ≤ 14 →
    wrapIndex (rowBase x y r) ≠ wrapIndex (rowBase x y r' + 1) ∧
    (r ≠ r' → wrapIndex (rowBase x y r) ≠ wrapIndex (rowBase x y r') ∧
      wrapIndex (rowBase x y r + 1) ≠ wrapIndex (rowBase x y r' + 1))

/-! ## Reset and load -/

/-- What reset leaves, after construction with any parameters and after `reset()` in any state: PC = 0x200, SP = 0, I = 0,
every V register 0, both timers 0, the font at 0x000 to 0x04F, Running (after R232; a wait and a halt are cleared, R233). -/
def Obligations.ResetLeavesTheResetValues : Prop :=
  ∀ (c : Config) (s t : State), t = State.construct c ∨ transact .reset s = .next t →
    t.pc = 0x200 ∧ t.sp = 0 ∧ t.i = 0 ∧ (∀ x, t.getV x = 0) ∧ t.dt = 0 ∧ t.st = 0 ∧
    (∀ a, (h : a < fontSize) → t.readByte a = t.cfg.font[a]) ∧ t.run = .running

/-- `reset()` rebuilds memory from the font and the recorded image, clears the stack and the frame buffer, and keeps the
image (after R230). What the program stored since is lost: log entry 14. -/
def Obligations.ResetRebuildsMemoryFromTheImage : Prop :=
  ∀ s : State,
    ∃ t, transact .reset s = .next t ∧ t.image = s.image ∧
      (∀ a, (h : a < fontSize) → t.readByte a = s.cfg.font[a]) ∧
      (∀ a, fontSize ≤ a → a < 0x200 → t.readByte a = 0) ∧
      (∀ k, (h : k < s.image.length) → t.readByte (0x200 + k) = s.image[k]) ∧
      (∀ a, 0x200 + s.image.length ≤ a → t.readByte a = 0) ∧
      (∀ k : Fin 16, t.stack[k.val] = 0) ∧ (∀ j : Fin 256, t.fb[j.val] = 0) ∧
      t.cfg = s.cfg ∧ t.draws = s.draws ∧ t.keys = s.keys ∧ t.events = s.events ∧ t.schedule = s.schedule

/-- A newly constructed core is in the state `reset()` gives with the empty image: a reset of it changes nothing. Its first
cycle, with nothing loaded, fetches 0x0000 at 0x200 and halts with UnknownOpcode (after R231). -/
def Obligations.ConstructionIsReset : Prop :=
  ∀ c : Config, transact .reset (State.construct c) = .next (State.construct c) ∧ (State.construct c).image = [] ∧
    ∃ t, step (State.construct c) = .next t ∧
      t.run = .halted { kind := .unknownOpcode, pc0 := 0x200, opcode := 0x0000, addr := 0 } ∧ t.pc = 0x202

/-- `load(image)` of at most 3584 bytes: the image stands at 0x200, everything above it is 0, memory below 0x200 and all
other state is unchanged, the image is recorded; a longer image is refused (after R108). Log entry 15. -/
def Obligations.LoadWritesTheImage : Prop :=
  ∀ (image : List Byte) (s : State),
    (image.length ≤ 3584 → ∃ t, transact (.load image) s = .next t ∧ t.image = image ∧
      (∀ a, a < 0x200 → t.readByte a = s.readByte a) ∧
      (∀ k, (h : k < image.length) → t.readByte (0x200 + k) = image[k]) ∧
      (∀ a, 0x200 + image.length ≤ a → t.readByte a = 0) ∧ OnlyChanges [] [.mem, .image] s t) ∧
    (3584 < image.length → transact (.load image) s = .refused (.imageTooLong image.length))

/-! ## Whole-machine invariants -/

/-- The invariant holds right after reset, whatever the parameters. -/
def Obligations.ResetSatisfiesTheInvariant : Prop :=
  Inv State.reset ∧ ∀ c : Config, Inv (State.construct c)

/-- Every step keeps the invariant, whatever the host's schedule: memory in canonical form, the font intact under the policy
`discard`, PC at most 0x10FE, I at most 0xFFF, stack slots at most 0x1000, the image within its bound, and a halt record
that fits the state it stands in (after R23, R24, R32, R33, R36). -/
def Obligations.EveryStepKeepsTheInvariant : Prop :=
  ∀ s t : State, Inv s → step s = .next t → Inv t

/-- The end-of-run convention: a run that has ended stays where it is under a further cycle (after R110). -/
def Obligations.EndedRunsStayPut : Prop :=
  ∀ s : State, RunEnded s → cycle s = .next s
end

