-- ==== Sys2Proof/Laws/State.lean ====
section
/-! SUPPORT. One lemma per field per state update, each true by rfl, so that no later proof unfolds a record update; then
the register accessors. -/

namespace Sys2Proof.Machine

/-! ### setV -/

@[simp] theorem State.setV_v (s : State) (x : Reg) (b : Byte) : (s.setV x b).v = s.v.set x.val b := rfl
@[simp] theorem State.setV_i (s : State) (x : Reg) (b : Byte) : (s.setV x b).i = s.i := rfl
@[simp] theorem State.setV_pc (s : State) (x : Reg) (b : Byte) : (s.setV x b).pc = s.pc := rfl
@[simp] theorem State.setV_sp (s : State) (x : Reg) (b : Byte) : (s.setV x b).sp = s.sp := rfl
@[simp] theorem State.setV_stack (s : State) (x : Reg) (b : Byte) : (s.setV x b).stack = s.stack := rfl
@[simp] theorem State.setV_dt (s : State) (x : Reg) (b : Byte) : (s.setV x b).dt = s.dt := rfl
@[simp] theorem State.setV_st (s : State) (x : Reg) (b : Byte) : (s.setV x b).st = s.st := rfl
@[simp] theorem State.setV_mem (s : State) (x : Reg) (b : Byte) : (s.setV x b).mem = s.mem := rfl
@[simp] theorem State.setV_fb (s : State) (x : Reg) (b : Byte) : (s.setV x b).fb = s.fb := rfl
@[simp] theorem State.setV_run (s : State) (x : Reg) (b : Byte) : (s.setV x b).run = s.run := rfl
@[simp] theorem State.setV_image (s : State) (x : Reg) (b : Byte) : (s.setV x b).image = s.image := rfl
@[simp] theorem State.setV_cfg (s : State) (x : Reg) (b : Byte) : (s.setV x b).cfg = s.cfg := rfl
@[simp] theorem State.setV_draws (s : State) (x : Reg) (b : Byte) : (s.setV x b).draws = s.draws := rfl
@[simp] theorem State.setV_keys (s : State) (x : Reg) (b : Byte) : (s.setV x b).keys = s.keys := rfl
@[simp] theorem State.setV_events (s : State) (x : Reg) (b : Byte) : (s.setV x b).events = s.events := rfl
@[simp] theorem State.setV_schedule (s : State) (x : Reg) (b : Byte) : (s.setV x b).schedule = s.schedule := rfl

/-! ### setPC -/

@[simp] theorem State.setPC_v (s : State) (w : Word) : (s.setPC w).v = s.v := rfl
@[simp] theorem State.setPC_i (s : State) (w : Word) : (s.setPC w).i = s.i := rfl
@[simp] theorem State.setPC_pc (s : State) (w : Word) : (s.setPC w).pc = w := rfl
@[simp] theorem State.setPC_sp (s : State) (w : Word) : (s.setPC w).sp = s.sp := rfl
@[simp] theorem State.setPC_stack (s : State) (w : Word) : (s.setPC w).stack = s.stack := rfl
@[simp] theorem State.setPC_dt (s : State) (w : Word) : (s.setPC w).dt = s.dt := rfl
@[simp] theorem State.setPC_st (s : State) (w : Word) : (s.setPC w).st = s.st := rfl
@[simp] theorem State.setPC_mem (s : State) (w : Word) : (s.setPC w).mem = s.mem := rfl
@[simp] theorem State.setPC_fb (s : State) (w : Word) : (s.setPC w).fb = s.fb := rfl
@[simp] theorem State.setPC_run (s : State) (w : Word) : (s.setPC w).run = s.run := rfl
@[simp] theorem State.setPC_image (s : State) (w : Word) : (s.setPC w).image = s.image := rfl
@[simp] theorem State.setPC_cfg (s : State) (w : Word) : (s.setPC w).cfg = s.cfg := rfl
@[simp] theorem State.setPC_draws (s : State) (w : Word) : (s.setPC w).draws = s.draws := rfl
@[simp] theorem State.setPC_keys (s : State) (w : Word) : (s.setPC w).keys = s.keys := rfl
@[simp] theorem State.setPC_events (s : State) (w : Word) : (s.setPC w).events = s.events := rfl
@[simp] theorem State.setPC_schedule (s : State) (w : Word) : (s.setPC w).schedule = s.schedule := rfl

/-! ### setI -/

@[simp] theorem State.setI_v (s : State) (w : Word) : (s.setI w).v = s.v := rfl
@[simp] theorem State.setI_i (s : State) (w : Word) : (s.setI w).i = w := rfl
@[simp] theorem State.setI_pc (s : State) (w : Word) : (s.setI w).pc = s.pc := rfl
@[simp] theorem State.setI_sp (s : State) (w : Word) : (s.setI w).sp = s.sp := rfl
@[simp] theorem State.setI_stack (s : State) (w : Word) : (s.setI w).stack = s.stack := rfl
@[simp] theorem State.setI_dt (s : State) (w : Word) : (s.setI w).dt = s.dt := rfl
@[simp] theorem State.setI_st (s : State) (w : Word) : (s.setI w).st = s.st := rfl
@[simp] theorem State.setI_mem (s : State) (w : Word) : (s.setI w).mem = s.mem := rfl
@[simp] theorem State.setI_fb (s : State) (w : Word) : (s.setI w).fb = s.fb := rfl
@[simp] theorem State.setI_run (s : State) (w : Word) : (s.setI w).run = s.run := rfl
@[simp] theorem State.setI_image (s : State) (w : Word) : (s.setI w).image = s.image := rfl
@[simp] theorem State.setI_cfg (s : State) (w : Word) : (s.setI w).cfg = s.cfg := rfl
@[simp] theorem State.setI_draws (s : State) (w : Word) : (s.setI w).draws = s.draws := rfl
@[simp] theorem State.setI_keys (s : State) (w : Word) : (s.setI w).keys = s.keys := rfl
@[simp] theorem State.setI_events (s : State) (w : Word) : (s.setI w).events = s.events := rfl
@[simp] theorem State.setI_schedule (s : State) (w : Word) : (s.setI w).schedule = s.schedule := rfl

/-! ### setDT -/

@[simp] theorem State.setDT_v (s : State) (b : Byte) : (s.setDT b).v = s.v := rfl
@[simp] theorem State.setDT_i (s : State) (b : Byte) : (s.setDT b).i = s.i := rfl
@[simp] theorem State.setDT_pc (s : State) (b : Byte) : (s.setDT b).pc = s.pc := rfl
@[simp] theorem State.setDT_sp (s : State) (b : Byte) : (s.setDT b).sp = s.sp := rfl
@[simp] theorem State.setDT_stack (s : State) (b : Byte) : (s.setDT b).stack = s.stack := rfl
@[simp] theorem State.setDT_dt (s : State) (b : Byte) : (s.setDT b).dt = b := rfl
@[simp] theorem State.setDT_st (s : State) (b : Byte) : (s.setDT b).st = s.st := rfl
@[simp] theorem State.setDT_mem (s : State) (b : Byte) : (s.setDT b).mem = s.mem := rfl
@[simp] theorem State.setDT_fb (s : State) (b : Byte) : (s.setDT b).fb = s.fb := rfl
@[simp] theorem State.setDT_run (s : State) (b : Byte) : (s.setDT b).run = s.run := rfl
@[simp] theorem State.setDT_image (s : State) (b : Byte) : (s.setDT b).image = s.image := rfl
@[simp] theorem State.setDT_cfg (s : State) (b : Byte) : (s.setDT b).cfg = s.cfg := rfl
@[simp] theorem State.setDT_draws (s : State) (b : Byte) : (s.setDT b).draws = s.draws := rfl
@[simp] theorem State.setDT_keys (s : State) (b : Byte) : (s.setDT b).keys = s.keys := rfl
@[simp] theorem State.setDT_events (s : State) (b : Byte) : (s.setDT b).events = s.events := rfl
@[simp] theorem State.setDT_schedule (s : State) (b : Byte) : (s.setDT b).schedule = s.schedule := rfl

/-! ### setST -/

@[simp] theorem State.setST_v (s : State) (b : Byte) : (s.setST b).v = s.v := rfl
@[simp] theorem State.setST_i (s : State) (b : Byte) : (s.setST b).i = s.i := rfl
@[simp] theorem State.setST_pc (s : State) (b : Byte) : (s.setST b).pc = s.pc := rfl
@[simp] theorem State.setST_sp (s : State) (b : Byte) : (s.setST b).sp = s.sp := rfl
@[simp] theorem State.setST_stack (s : State) (b : Byte) : (s.setST b).stack = s.stack := rfl
@[simp] theorem State.setST_dt (s : State) (b : Byte) : (s.setST b).dt = s.dt := rfl
@[simp] theorem State.setST_st (s : State) (b : Byte) : (s.setST b).st = b := rfl
@[simp] theorem State.setST_mem (s : State) (b : Byte) : (s.setST b).mem = s.mem := rfl
@[simp] theorem State.setST_fb (s : State) (b : Byte) : (s.setST b).fb = s.fb := rfl
@[simp] theorem State.setST_run (s : State) (b : Byte) : (s.setST b).run = s.run := rfl
@[simp] theorem State.setST_image (s : State) (b : Byte) : (s.setST b).image = s.image := rfl
@[simp] theorem State.setST_cfg (s : State) (b : Byte) : (s.setST b).cfg = s.cfg := rfl
@[simp] theorem State.setST_draws (s : State) (b : Byte) : (s.setST b).draws = s.draws := rfl
@[simp] theorem State.setST_keys (s : State) (b : Byte) : (s.setST b).keys = s.keys := rfl
@[simp] theorem State.setST_events (s : State) (b : Byte) : (s.setST b).events = s.events := rfl
@[simp] theorem State.setST_schedule (s : State) (b : Byte) : (s.setST b).schedule = s.schedule := rfl

/-! ### setRun -/

@[simp] theorem State.setRun_v (s : State) (r : RunState) : (s.setRun r).v = s.v := rfl
@[simp] theorem State.setRun_i (s : State) (r : RunState) : (s.setRun r).i = s.i := rfl
@[simp] theorem State.setRun_pc (s : State) (r : RunState) : (s.setRun r).pc = s.pc := rfl
@[simp] theorem State.setRun_sp (s : State) (r : RunState) : (s.setRun r).sp = s.sp := rfl
@[simp] theorem State.setRun_stack (s : State) (r : RunState) : (s.setRun r).stack = s.stack := rfl
@[simp] theorem State.setRun_dt (s : State) (r : RunState) : (s.setRun r).dt = s.dt := rfl
@[simp] theorem State.setRun_st (s : State) (r : RunState) : (s.setRun r).st = s.st := rfl
@[simp] theorem State.setRun_mem (s : State) (r : RunState) : (s.setRun r).mem = s.mem := rfl
@[simp] theorem State.setRun_fb (s : State) (r : RunState) : (s.setRun r).fb = s.fb := rfl
@[simp] theorem State.setRun_run (s : State) (r : RunState) : (s.setRun r).run = r := rfl
@[simp] theorem State.setRun_image (s : State) (r : RunState) : (s.setRun r).image = s.image := rfl
@[simp] theorem State.setRun_cfg (s : State) (r : RunState) : (s.setRun r).cfg = s.cfg := rfl
@[simp] theorem State.setRun_draws (s : State) (r : RunState) : (s.setRun r).draws = s.draws := rfl
@[simp] theorem State.setRun_keys (s : State) (r : RunState) : (s.setRun r).keys = s.keys := rfl
@[simp] theorem State.setRun_events (s : State) (r : RunState) : (s.setRun r).events = s.events := rfl
@[simp] theorem State.setRun_schedule (s : State) (r : RunState) : (s.setRun r).schedule = s.schedule := rfl

/-! ### setFb -/

@[simp] theorem State.setFb_v (s : State) (f : Frame) : (s.setFb f).v = s.v := rfl
@[simp] theorem State.setFb_i (s : State) (f : Frame) : (s.setFb f).i = s.i := rfl
@[simp] theorem State.setFb_pc (s : State) (f : Frame) : (s.setFb f).pc = s.pc := rfl
@[simp] theorem State.setFb_sp (s : State) (f : Frame) : (s.setFb f).sp = s.sp := rfl
@[simp] theorem State.setFb_stack (s : State) (f : Frame) : (s.setFb f).stack = s.stack := rfl
@[simp] theorem State.setFb_dt (s : State) (f : Frame) : (s.setFb f).dt = s.dt := rfl
@[simp] theorem State.setFb_st (s : State) (f : Frame) : (s.setFb f).st = s.st := rfl
@[simp] theorem State.setFb_mem (s : State) (f : Frame) : (s.setFb f).mem = s.mem := rfl
@[simp] theorem State.setFb_fb (s : State) (f : Frame) : (s.setFb f).fb = f := rfl
@[simp] theorem State.setFb_run (s : State) (f : Frame) : (s.setFb f).run = s.run := rfl
@[simp] theorem State.setFb_image (s : State) (f : Frame) : (s.setFb f).image = s.image := rfl
@[simp] theorem State.setFb_cfg (s : State) (f : Frame) : (s.setFb f).cfg = s.cfg := rfl
@[simp] theorem State.setFb_draws (s : State) (f : Frame) : (s.setFb f).draws = s.draws := rfl
@[simp] theorem State.setFb_keys (s : State) (f : Frame) : (s.setFb f).keys = s.keys := rfl
@[simp] theorem State.setFb_events (s : State) (f : Frame) : (s.setFb f).events = s.events := rfl
@[simp] theorem State.setFb_schedule (s : State) (f : Frame) : (s.setFb f).schedule = s.schedule := rfl

/-! ### advancePC -/

@[simp] theorem State.advancePC_v (s : State) : (s.advancePC).v = s.v := rfl
@[simp] theorem State.advancePC_i (s : State) : (s.advancePC).i = s.i := rfl
@[simp] theorem State.advancePC_pc (s : State) : (s.advancePC).pc = s.pc + 2 := rfl
@[simp] theorem State.advancePC_sp (s : State) : (s.advancePC).sp = s.sp := rfl
@[simp] theorem State.advancePC_stack (s : State) : (s.advancePC).stack = s.stack := rfl
@[simp] theorem State.advancePC_dt (s : State) : (s.advancePC).dt = s.dt := rfl
@[simp] theorem State.advancePC_st (s : State) : (s.advancePC).st = s.st := rfl
@[simp] theorem State.advancePC_mem (s : State) : (s.advancePC).mem = s.mem := rfl
@[simp] theorem State.advancePC_fb (s : State) : (s.advancePC).fb = s.fb := rfl
@[simp] theorem State.advancePC_run (s : State) : (s.advancePC).run = s.run := rfl
@[simp] theorem State.advancePC_image (s : State) : (s.advancePC).image = s.image := rfl
@[simp] theorem State.advancePC_cfg (s : State) : (s.advancePC).cfg = s.cfg := rfl
@[simp] theorem State.advancePC_draws (s : State) : (s.advancePC).draws = s.draws := rfl
@[simp] theorem State.advancePC_keys (s : State) : (s.advancePC).keys = s.keys := rfl
@[simp] theorem State.advancePC_events (s : State) : (s.advancePC).events = s.events := rfl
@[simp] theorem State.advancePC_schedule (s : State) : (s.advancePC).schedule = s.schedule := rfl

/-! ### setRegsUpTo -/

@[simp] theorem State.setRegsUpTo_v (s : State) (k : Reg) (f : Nat → Byte) :
    (s.setRegsUpTo k f).v = Vector.ofFn fun r : Fin 16 => if r.val ≤ k.val then f r.val else s.v[r.val] := rfl
@[simp] theorem State.setRegsUpTo_i (s : State) (k : Reg) (f : Nat → Byte) : (s.setRegsUpTo k f).i = s.i := rfl
@[simp] theorem State.setRegsUpTo_pc (s : State) (k : Reg) (f : Nat → Byte) : (s.setRegsUpTo k f).pc = s.pc := rfl
@[simp] theorem State.setRegsUpTo_sp (s : State) (k : Reg) (f : Nat → Byte) : (s.setRegsUpTo k f).sp = s.sp := rfl
@[simp] theorem State.setRegsUpTo_stack (s : State) (k : Reg) (f : Nat → Byte) :
    (s.setRegsUpTo k f).stack = s.stack := rfl
@[simp] theorem State.setRegsUpTo_dt (s : State) (k : Reg) (f : Nat → Byte) : (s.setRegsUpTo k f).dt = s.dt := rfl
@[simp] theorem State.setRegsUpTo_st (s : State) (k : Reg) (f : Nat → Byte) : (s.setRegsUpTo k f).st = s.st := rfl
@[simp] theorem State.setRegsUpTo_mem (s : State) (k : Reg) (f : Nat → Byte) : (s.setRegsUpTo k f).mem = s.mem := rfl
@[simp] theorem State.setRegsUpTo_fb (s : State) (k : Reg) (f : Nat → Byte) : (s.setRegsUpTo k f).fb = s.fb := rfl
@[simp] theorem State.setRegsUpTo_run (s : State) (k : Reg) (f : Nat → Byte) : (s.setRegsUpTo k f).run = s.run := rfl
@[simp] theorem State.setRegsUpTo_image (s : State) (k : Reg) (f : Nat → Byte) :
    (s.setRegsUpTo k f).image = s.image := rfl
@[simp] theorem State.setRegsUpTo_cfg (s : State) (k : Reg) (f : Nat → Byte) : (s.setRegsUpTo k f).cfg = s.cfg := rfl
@[simp] theorem State.setRegsUpTo_draws (s : State) (k : Reg) (f : Nat → Byte) :
    (s.setRegsUpTo k f).draws = s.draws := rfl
@[simp] theorem State.setRegsUpTo_keys (s : State) (k : Reg) (f : Nat → Byte) : (s.setRegsUpTo k f).keys = s.keys := rfl
@[simp] theorem State.setRegsUpTo_events (s : State) (k : Reg) (f : Nat → Byte) :
    (s.setRegsUpTo k f).events = s.events := rfl
@[simp] theorem State.setRegsUpTo_schedule (s : State) (k : Reg) (f : Nat → Byte) :
    (s.setRegsUpTo k f).schedule = s.schedule := rfl

/-! ### emit -/

@[simp] theorem State.emit_v (s : State) (e : Event) : (s.emit e).v = s.v := rfl
@[simp] theorem State.emit_i (s : State) (e : Event) : (s.emit e).i = s.i := rfl
@[simp] theorem State.emit_pc (s : State) (e : Event) : (s.emit e).pc = s.pc := rfl
@[simp] theorem State.emit_sp (s : State) (e : Event) : (s.emit e).sp = s.sp := rfl
@[simp] theorem State.emit_stack (s : State) (e : Event) : (s.emit e).stack = s.stack := rfl
@[simp] theorem State.emit_dt (s : State) (e : Event) : (s.emit e).dt = s.dt := rfl
@[simp] theorem State.emit_st (s : State) (e : Event) : (s.emit e).st = s.st := rfl
@[simp] theorem State.emit_mem (s : State) (e : Event) : (s.emit e).mem = s.mem := rfl
@[simp] theorem State.emit_fb (s : State) (e : Event) : (s.emit e).fb = s.fb := rfl
@[simp] theorem State.emit_run (s : State) (e : Event) : (s.emit e).run = s.run := rfl
@[simp] theorem State.emit_image (s : State) (e : Event) : (s.emit e).image = s.image := rfl
@[simp] theorem State.emit_cfg (s : State) (e : Event) : (s.emit e).cfg = s.cfg := rfl
@[simp] theorem State.emit_draws (s : State) (e : Event) : (s.emit e).draws = s.draws := rfl
@[simp] theorem State.emit_keys (s : State) (e : Event) : (s.emit e).keys = s.keys := rfl
@[simp] theorem State.emit_events (s : State) (e : Event) : (s.emit e).events = e :: s.events := rfl
@[simp] theorem State.emit_schedule (s : State) (e : Event) : (s.emit e).schedule = s.schedule := rfl

/-! ### halt -/

@[simp] theorem State.halt_v (s : State) (err : HaltRecord) : (s.halt err).v = s.v := rfl
@[simp] theorem State.halt_i (s : State) (err : HaltRecord) : (s.halt err).i = s.i := rfl
@[simp] theorem State.halt_pc (s : State) (err : HaltRecord) : (s.halt err).pc = s.pc := rfl
@[simp] theorem State.halt_sp (s : State) (err : HaltRecord) : (s.halt err).sp = s.sp := rfl
@[simp] theorem State.halt_stack (s : State) (err : HaltRecord) : (s.halt err).stack = s.stack := rfl
@[simp] theorem State.halt_dt (s : State) (err : HaltRecord) : (s.halt err).dt = s.dt := rfl
@[simp] theorem State.halt_st (s : State) (err : HaltRecord) : (s.halt err).st = s.st := rfl
@[simp] theorem State.halt_mem (s : State) (err : HaltRecord) : (s.halt err).mem = s.mem := rfl
@[simp] theorem State.halt_fb (s : State) (err : HaltRecord) : (s.halt err).fb = s.fb := rfl
@[simp] theorem State.halt_run (s : State) (err : HaltRecord) : (s.halt err).run = .halted err := rfl
@[simp] theorem State.halt_image (s : State) (err : HaltRecord) : (s.halt err).image = s.image := rfl
@[simp] theorem State.halt_cfg (s : State) (err : HaltRecord) : (s.halt err).cfg = s.cfg := rfl
@[simp] theorem State.halt_draws (s : State) (err : HaltRecord) : (s.halt err).draws = s.draws := rfl
@[simp] theorem State.halt_keys (s : State) (err : HaltRecord) : (s.halt err).keys = s.keys := rfl
@[simp] theorem State.halt_events (s : State) (err : HaltRecord) : (s.halt err).events = .halted err :: s.events := rfl
@[simp] theorem State.halt_schedule (s : State) (err : HaltRecord) : (s.halt err).schedule = s.schedule := rfl

/-! ### raise -/

@[simp] theorem State.raise_v (s : State) (kind : ErrorKind) (op : Word) (addr : Nat) :
    (s.raise kind op addr).v = s.v := rfl
@[simp] theorem State.raise_i (s : State) (kind : ErrorKind) (op : Word) (addr : Nat) :
    (s.raise kind op addr).i = s.i := rfl
@[simp] theorem State.raise_pc (s : State) (kind : ErrorKind) (op : Word) (addr : Nat) :
    (s.raise kind op addr).pc = s.pc := rfl
@[simp] theorem State.raise_sp (s : State) (kind : ErrorKind) (op : Word) (addr : Nat) :
    (s.raise kind op addr).sp = s.sp := rfl
@[simp] theorem State.raise_stack (s : State) (kind : ErrorKind) (op : Word) (addr : Nat) :
    (s.raise kind op addr).stack = s.stack := rfl
@[simp] theorem State.raise_dt (s : State) (kind : ErrorKind) (op : Word) (addr : Nat) :
    (s.raise kind op addr).dt = s.dt := rfl
@[simp] theorem State.raise_st (s : State) (kind : ErrorKind) (op : Word) (addr : Nat) :
    (s.raise kind op addr).st = s.st := rfl
@[simp] theorem State.raise_mem (s : State) (kind : ErrorKind) (op : Word) (addr : Nat) :
    (s.raise kind op addr).mem = s.mem := rfl
@[simp] theorem State.raise_fb (s : State) (kind : ErrorKind) (op : Word) (addr : Nat) :
    (s.raise kind op addr).fb = s.fb := rfl
@[simp] theorem State.raise_run (s : State) (kind : ErrorKind) (op : Word) (addr : Nat) :
    (s.raise kind op addr).run = .halted ⟨kind, s.pc - 2, op, addr⟩ := rfl
@[simp] theorem State.raise_image (s : State) (kind : ErrorKind) (op : Word) (addr : Nat) :
    (s.raise kind op addr).image = s.image := rfl
@[simp] theorem State.raise_cfg (s : State) (kind : ErrorKind) (op : Word) (addr : Nat) :
    (s.raise kind op addr).cfg = s.cfg := rfl
@[simp] theorem State.raise_draws (s : State) (kind : ErrorKind) (op : Word) (addr : Nat) :
    (s.raise kind op addr).draws = s.draws := rfl
@[simp] theorem State.raise_keys (s : State) (kind : ErrorKind) (op : Word) (addr : Nat) :
    (s.raise kind op addr).keys = s.keys := rfl
@[simp] theorem State.raise_events (s : State) (kind : ErrorKind) (op : Word) (addr : Nat) :
    (s.raise kind op addr).events = .halted ⟨kind, s.pc - 2, op, addr⟩ :: s.events := rfl
@[simp] theorem State.raise_schedule (s : State) (kind : ErrorKind) (op : Word) (addr : Nat) :
    (s.raise kind op addr).schedule = s.schedule := rfl

/-! ### raiseFetch -/

@[simp] theorem State.raiseFetch_v (s : State) (addr : Nat) : (s.raiseFetch addr).v = s.v := rfl
@[simp] theorem State.raiseFetch_i (s : State) (addr : Nat) : (s.raiseFetch addr).i = s.i := rfl
@[simp] theorem State.raiseFetch_pc (s : State) (addr : Nat) : (s.raiseFetch addr).pc = s.pc := rfl
@[simp] theorem State.raiseFetch_sp (s : State) (addr : Nat) : (s.raiseFetch addr).sp = s.sp := rfl
@[simp] theorem State.raiseFetch_stack (s : State) (addr : Nat) : (s.raiseFetch addr).stack = s.stack := rfl
@[simp] theorem State.raiseFetch_dt (s : State) (addr : Nat) : (s.raiseFetch addr).dt = s.dt := rfl
@[simp] theorem State.raiseFetch_st (s : State) (addr : Nat) : (s.raiseFetch addr).st = s.st := rfl
@[simp] theorem State.raiseFetch_mem (s : State) (addr : Nat) : (s.raiseFetch addr).mem = s.mem := rfl
@[simp] theorem State.raiseFetch_fb (s : State) (addr : Nat) : (s.raiseFetch addr).fb = s.fb := rfl
@[simp] theorem State.raiseFetch_run (s : State) (addr : Nat) :
    (s.raiseFetch addr).run = .halted ⟨.memoryFault, s.pc, 0, addr⟩ := rfl
@[simp] theorem State.raiseFetch_image (s : State) (addr : Nat) : (s.raiseFetch addr).image = s.image := rfl
@[simp] theorem State.raiseFetch_cfg (s : State) (addr : Nat) : (s.raiseFetch addr).cfg = s.cfg := rfl
@[simp] theorem State.raiseFetch_draws (s : State) (addr : Nat) : (s.raiseFetch addr).draws = s.draws := rfl
@[simp] theorem State.raiseFetch_keys (s : State) (addr : Nat) : (s.raiseFetch addr).keys = s.keys := rfl
@[simp] theorem State.raiseFetch_events (s : State) (addr : Nat) :
    (s.raiseFetch addr).events = .halted ⟨.memoryFault, s.pc, 0, addr⟩ :: s.events := rfl
@[simp] theorem State.raiseFetch_schedule (s : State) (addr : Nat) : (s.raiseFetch addr).schedule = s.schedule := rfl

/-! ### tookDraw -/

@[simp] theorem State.tookDraw_v (s : State) : (s.tookDraw).v = s.v := rfl
@[simp] theorem State.tookDraw_i (s : State) : (s.tookDraw).i = s.i := rfl
@[simp] theorem State.tookDraw_pc (s : State) : (s.tookDraw).pc = s.pc := rfl
@[simp] theorem State.tookDraw_sp (s : State) : (s.tookDraw).sp = s.sp := rfl
@[simp] theorem State.tookDraw_stack (s : State) : (s.tookDraw).stack = s.stack := rfl
@[simp] theorem State.tookDraw_dt (s : State) : (s.tookDraw).dt = s.dt := rfl
@[simp] theorem State.tookDraw_st (s : State) : (s.tookDraw).st = s.st := rfl
@[simp] theorem State.tookDraw_mem (s : State) : (s.tookDraw).mem = s.mem := rfl
@[simp] theorem State.tookDraw_fb (s : State) : (s.tookDraw).fb = s.fb := rfl
@[simp] theorem State.tookDraw_run (s : State) : (s.tookDraw).run = s.run := rfl
@[simp] theorem State.tookDraw_image (s : State) : (s.tookDraw).image = s.image := rfl
@[simp] theorem State.tookDraw_cfg (s : State) : (s.tookDraw).cfg = s.cfg := rfl
@[simp] theorem State.tookDraw_draws (s : State) : (s.tookDraw).draws = s.draws + 1 := rfl
@[simp] theorem State.tookDraw_keys (s : State) : (s.tookDraw).keys = s.keys := rfl
@[simp] theorem State.tookDraw_events (s : State) : (s.tookDraw).events = s.events := rfl
@[simp] theorem State.tookDraw_schedule (s : State) : (s.tookDraw).schedule = s.schedule := rfl

/-! ### tick -/

@[simp] theorem State.tick_v (s : State) : (s.tick).v = s.v := rfl
@[simp] theorem State.tick_i (s : State) : (s.tick).i = s.i := rfl
@[simp] theorem State.tick_pc (s : State) : (s.tick).pc = s.pc := rfl
@[simp] theorem State.tick_sp (s : State) : (s.tick).sp = s.sp := rfl
@[simp] theorem State.tick_stack (s : State) : (s.tick).stack = s.stack := rfl
@[simp] theorem State.tick_dt (s : State) : (s.tick).dt = countDown s.dt := rfl
@[simp] theorem State.tick_st (s : State) : (s.tick).st = countDown s.st := rfl
@[simp] theorem State.tick_mem (s : State) : (s.tick).mem = s.mem := rfl
@[simp] theorem State.tick_fb (s : State) : (s.tick).fb = s.fb := rfl
@[simp] theorem State.tick_run (s : State) : (s.tick).run = s.run := rfl
@[simp] theorem State.tick_image (s : State) : (s.tick).image = s.image := rfl
@[simp] theorem State.tick_cfg (s : State) : (s.tick).cfg = s.cfg := rfl
@[simp] theorem State.tick_draws (s : State) : (s.tick).draws = s.draws := rfl
@[simp] theorem State.tick_keys (s : State) : (s.tick).keys = s.keys := rfl
@[simp] theorem State.tick_events (s : State) : (s.tick).events = s.events := rfl
@[simp] theorem State.tick_schedule (s : State) : (s.tick).schedule = s.schedule := rfl

/-! ### setKeys -/

@[simp] theorem State.setKeys_v (s : State) (keys : Vector Bool 16) : (s.setKeys keys).v = s.v := rfl
@[simp] theorem State.setKeys_i (s : State) (keys : Vector Bool 16) : (s.setKeys keys).i = s.i := rfl
@[simp] theorem State.setKeys_pc (s : State) (keys : Vector Bool 16) : (s.setKeys keys).pc = s.pc := rfl
@[simp] theorem State.setKeys_sp (s : State) (keys : Vector Bool 16) : (s.setKeys keys).sp = s.sp := rfl
@[simp] theorem State.setKeys_stack (s : State) (keys : Vector Bool 16) : (s.setKeys keys).stack = s.stack := rfl
@[simp] theorem State.setKeys_dt (s : State) (keys : Vector Bool 16) : (s.setKeys keys).dt = s.dt := rfl
@[simp] theorem State.setKeys_st (s : State) (keys : Vector Bool 16) : (s.setKeys keys).st = s.st := rfl
@[simp] theorem State.setKeys_mem (s : State) (keys : Vector Bool 16) : (s.setKeys keys).mem = s.mem := rfl
@[simp] theorem State.setKeys_fb (s : State) (keys : Vector Bool 16) : (s.setKeys keys).fb = s.fb := rfl
@[simp] theorem State.setKeys_run (s : State) (keys : Vector Bool 16) : (s.setKeys keys).run = s.run := rfl
@[simp] theorem State.setKeys_image (s : State) (keys : Vector Bool 16) : (s.setKeys keys).image = s.image := rfl
@[simp] theorem State.setKeys_cfg (s : State) (keys : Vector Bool 16) : (s.setKeys keys).cfg = s.cfg := rfl
@[simp] theorem State.setKeys_draws (s : State) (keys : Vector Bool 16) : (s.setKeys keys).draws = s.draws := rfl
@[simp] theorem State.setKeys_keys (s : State) (keys : Vector Bool 16) : (s.setKeys keys).keys = keys := rfl
@[simp] theorem State.setKeys_events (s : State) (keys : Vector Bool 16) : (s.setKeys keys).events = s.events := rfl
@[simp] theorem State.setKeys_schedule (s : State) (keys : Vector Bool 16) :
    (s.setKeys keys).schedule = s.schedule := rfl

/-! ### hostReset -/

@[simp] theorem State.hostReset_v (s : State) : (s.hostReset).v = Vector.replicate 16 0 := rfl
@[simp] theorem State.hostReset_i (s : State) : (s.hostReset).i = 0 := rfl
@[simp] theorem State.hostReset_pc (s : State) : (s.hostReset).pc = 0x200 := rfl
@[simp] theorem State.hostReset_sp (s : State) : (s.hostReset).sp = 0 := rfl
@[simp] theorem State.hostReset_stack (s : State) : (s.hostReset).stack = Vector.replicate 16 0 := rfl
@[simp] theorem State.hostReset_dt (s : State) : (s.hostReset).dt = 0 := rfl
@[simp] theorem State.hostReset_st (s : State) : (s.hostReset).st = 0 := rfl
@[simp] theorem State.hostReset_mem (s : State) :
    (s.hostReset).mem = Memory.writeList s.cfg [] programBase s.image := rfl
@[simp] theorem State.hostReset_fb (s : State) : (s.hostReset).fb = Vector.replicate 256 0 := rfl
@[simp] theorem State.hostReset_run (s : State) : (s.hostReset).run = .running := rfl
@[simp] theorem State.hostReset_image (s : State) : (s.hostReset).image = s.image := rfl
@[simp] theorem State.hostReset_cfg (s : State) : (s.hostReset).cfg = s.cfg := rfl
@[simp] theorem State.hostReset_draws (s : State) : (s.hostReset).draws = s.draws := rfl
@[simp] theorem State.hostReset_keys (s : State) : (s.hostReset).keys = s.keys := rfl
@[simp] theorem State.hostReset_events (s : State) : (s.hostReset).events = s.events := rfl
@[simp] theorem State.hostReset_schedule (s : State) : (s.hostReset).schedule = s.schedule := rfl

/-! ### The general registers -/

theorem State.getV_setV (s : State) (x y : Reg) (b : Byte) :
    (s.setV x b).getV y = if y = x then b else s.getV y := by
  by_cases h : y = x
  · subst h; simp [State.getV]
  · have : x.val ≠ y.val := fun h' => h (Fin.ext h'.symm)
    simp [State.getV, this, h]

@[simp] theorem State.getV_setV_self (s : State) (x : Reg) (b : Byte) : (s.setV x b).getV x = b := by
  simp [State.getV_setV]

theorem State.getV_setV_ne (s : State) {x y : Reg} (b : Byte) (h : y ≠ x) : (s.setV x b).getV y = s.getV y := by
  simp [State.getV_setV, h]

/-- The flag is written before the result: the result remains when x = F (R34). -/
theorem State.getV_setFlagThenV (s : State) (flag : Byte) (x y : Reg) (b : Byte) :
    (s.setFlagThenV flag x b).getV y = if y = x then b else if y = vF then flag else s.getV y := by
  simp [State.setFlagThenV, State.getV_setV]

theorem State.getV_setRegsUpTo (s : State) (k y : Reg) (f : Nat → Byte) :
    (s.setRegsUpTo k f).getV y = if y.val ≤ k.val then f y.val else s.getV y := by
  simp [State.getV]

/-- Two states with the same memory and parameters read the same bytes. -/
theorem State.readByte_congr {s t : State} (hm : t.mem = s.mem) (hc : t.cfg = s.cfg) (a : Nat) :
    t.readByte a = s.readByte a := by
  simp only [State.readByte, hm, hc]

/-- Two states with the same registers read the same. -/
theorem State.getV_congr {s t : State} (h : t.v = s.v) (x : Reg) : t.getV x = s.getV x := by
  simp [State.getV, h]

@[simp] theorem State.getV_setPC (s : State) (w : Word) (x : Reg) : (s.setPC w).getV x = s.getV x := rfl
@[simp] theorem State.getV_setI (s : State) (w : Word) (x : Reg) : (s.setI w).getV x = s.getV x := rfl
@[simp] theorem State.getV_setDT (s : State) (b : Byte) (x : Reg) : (s.setDT b).getV x = s.getV x := rfl
@[simp] theorem State.getV_setST (s : State) (b : Byte) (x : Reg) : (s.setST b).getV x = s.getV x := rfl
@[simp] theorem State.getV_setRun (s : State) (r : RunState) (x : Reg) : (s.setRun r).getV x = s.getV x := rfl
@[simp] theorem State.getV_setFb (s : State) (f : Frame) (x : Reg) : (s.setFb f).getV x = s.getV x := rfl
@[simp] theorem State.getV_advancePC (s : State) (x : Reg) : (s.advancePC).getV x = s.getV x := rfl
@[simp] theorem State.getV_emit (s : State) (e : Event) (x : Reg) : (s.emit e).getV x = s.getV x := rfl
@[simp] theorem State.getV_halt (s : State) (err : HaltRecord) (x : Reg) : (s.halt err).getV x = s.getV x := rfl
@[simp] theorem State.getV_raise (s : State) (kind : ErrorKind) (op : Word) (addr : Nat) (x : Reg) : (s.raise kind op addr).getV x = s.getV x := rfl
@[simp] theorem State.getV_raiseFetch (s : State) (addr : Nat) (x : Reg) : (s.raiseFetch addr).getV x = s.getV x := rfl
@[simp] theorem State.getV_tookDraw (s : State) (x : Reg) : (s.tookDraw).getV x = s.getV x := rfl
@[simp] theorem State.getV_tick (s : State) (x : Reg) : (s.tick).getV x = s.getV x := rfl
@[simp] theorem State.getV_setKeys (s : State) (keys : Vector Bool 16) (x : Reg) : (s.setKeys keys).getV x = s.getV x := rfl

/-! ### Reading memory through an update that leaves it alone -/

@[simp] theorem State.readByte_setPC (s : State) (w : Word) (a : Nat) : (s.setPC w).readByte a = s.readByte a := rfl
@[simp] theorem State.readByte_setI (s : State) (w : Word) (a : Nat) : (s.setI w).readByte a = s.readByte a := rfl
@[simp] theorem State.readByte_setDT (s : State) (b : Byte) (a : Nat) : (s.setDT b).readByte a = s.readByte a := rfl
@[simp] theorem State.readByte_setST (s : State) (b : Byte) (a : Nat) : (s.setST b).readByte a = s.readByte a := rfl
@[simp] theorem State.readByte_setRun (s : State) (r : RunState) (a : Nat) : (s.setRun r).readByte a = s.readByte a := rfl
@[simp] theorem State.readByte_setFb (s : State) (f : Frame) (a : Nat) : (s.setFb f).readByte a = s.readByte a := rfl
@[simp] theorem State.readByte_advancePC (s : State) (a : Nat) : (s.advancePC).readByte a = s.readByte a := rfl
@[simp] theorem State.readByte_emit (s : State) (e : Event) (a : Nat) : (s.emit e).readByte a = s.readByte a := rfl
@[simp] theorem State.readByte_halt (s : State) (err : HaltRecord) (a : Nat) : (s.halt err).readByte a = s.readByte a := rfl
@[simp] theorem State.readByte_raise (s : State) (kind : ErrorKind) (op : Word) (addr a : Nat) : (s.raise kind op addr).readByte a = s.readByte a := rfl
@[simp] theorem State.readByte_raiseFetch (s : State) (addr a : Nat) : (s.raiseFetch addr).readByte a = s.readByte a := rfl
@[simp] theorem State.readByte_tookDraw (s : State) (a : Nat) : (s.tookDraw).readByte a = s.readByte a := rfl
@[simp] theorem State.readByte_tick (s : State) (a : Nat) : (s.tick).readByte a = s.readByte a := rfl
@[simp] theorem State.readByte_setKeys (s : State) (keys : Vector Bool 16) (a : Nat) : (s.setKeys keys).readByte a = s.readByte a := rfl
@[simp] theorem State.readByte_setV (s : State) (x : Reg) (b : Byte) (a : Nat) : (s.setV x b).readByte a = s.readByte a := rfl
@[simp] theorem State.readByte_setRegsUpTo (s : State) (k : Reg) (f : Nat → Byte) (a : Nat) : (s.setRegsUpTo k f).readByte a = s.readByte a := rfl

/-! ### Skips -/

@[simp] theorem State.skipIf_true (s : State) : s.skipIf true = s.advancePC := rfl
@[simp] theorem State.skipIf_false (s : State) : s.skipIf false = s := rfl

/-- A skip writes PC and nothing else (R136). -/
theorem State.skipIf_eq (s : State) (c : Bool) : s.skipIf c = s.setPC (if c then s.pc + 2 else s.pc) := by
  cases c <;> rfl

end Sys2Proof.Machine
end

