-- ==== Sys2Proof/Laws/Memory.lean ====
section
/-! SUPPORT. What the memory operations do: a read after a write, and that every operation keeps the canonical form, under
which equal contents are equal lists. -/

namespace Sys2Proof.Machine

variable {c : Config} {m : Memory}

/-! ## Reads after writes -/

theorem Memory.lookup_cons (a k : Nat) (b : Byte) (m : Memory) :
    (((a, b) :: m : Memory)).lookup k = if k = a then some b else m.lookup k := by
  rw [List.lookup_cons]
  by_cases h : k = a
  · simp [h]
  · have : (k == a) = false := by simpa using h
    simp [this, h]

/-- Keeping the entries whose address passes a test. -/
theorem Memory.lookup_filter (f : Nat → Bool) (k : Nat) (m : Memory) :
    (m.filter fun p => f p.1).lookup k = if f k then m.lookup k else none := by
  induction m with
  | nil => simp
  | cons p rest ih =>
    obtain ⟨pa, pb⟩ := p
    rw [Memory.lookup_cons, List.filter_cons]
    by_cases hk : k = pa
    · subst hk
      by_cases hf : f k
      · simp [hf]
      · simpa [hf] using ih
    · by_cases hf : f pa
      · simp [hf, Memory.lookup_cons, hk, ih]
      · simpa [hf, hk] using ih

theorem Memory.lookup_erase (a k : Nat) (m : Memory) :
    (Memory.erase a m).lookup k = if k = a then none else m.lookup k := by
  unfold Memory.erase
  rw [Memory.lookup_filter (fun q => q != a)]
  by_cases h : k = a <;> simp [h]

theorem Memory.lookup_put (a k : Nat) (b : Byte) (m : Memory) :
    (Memory.put a b m).lookup k = if k = a then some b else m.lookup k := by
  induction m with
  | nil => simp [Memory.put, Memory.lookup_cons]
  | cons p rest ih =>
    obtain ⟨pa, pb⟩ := p
    simp only [Memory.put]
    split
    · rw [Memory.lookup_cons]
    · split
      · rename_i _ h
        subst h
        simp only [Memory.lookup_cons]
        split <;> rfl
      · rename_i _ hne
        rw [Memory.lookup_cons, ih, Memory.lookup_cons]
        by_cases hk : k = pa
        · simp [hk, Ne.symm hne]
        · simp [hk]

/-- A read after a write to the same address gives the byte written; every other address reads as before. -/
theorem Memory.read_write (c : Config) (m : Memory) (a k : Nat) (b : Byte) :
    Memory.read c (Memory.write c m a b) k = if k = a then b else Memory.read c m k := by
  unfold Memory.write Memory.read
  split
  · rename_i h
    rw [Memory.lookup_erase]
    by_cases hk : k = a
    · simp [hk, h]
    · simp [hk]
  · rw [Memory.lookup_put]
    by_cases hk : k = a <;> simp [hk]

/-- A read after a run of bytes is stored: inside the run the byte stored there, outside it what was there. -/
theorem Memory.read_writeList (c : Config) (bytes : List Byte) (m : Memory) (a k : Nat) :
    Memory.read c (Memory.writeList c m a bytes) k =
      if a ≤ k ∧ k < a + bytes.length then bytes.getD (k - a) 0 else Memory.read c m k := by
  induction bytes generalizing m a with
  | nil => simp only [Memory.writeList, List.length_nil]; split <;> [omega; rfl]
  | cons b rest ih =>
    rw [Memory.writeList, ih, Memory.read_write, List.length_cons]
    by_cases hka : k = a
    · subst hka
      have h1 : ¬ (k + 1 ≤ k ∧ k < k + 1 + rest.length) := by omega
      have h2 : k ≤ k ∧ k < k + (rest.length + 1) := by omega
      simp
    · by_cases h : a + 1 ≤ k ∧ k < a + 1 + rest.length
      · have h2 : a ≤ k ∧ k < a + (rest.length + 1) := by omega
        have h3 : k - a = (k - (a + 1)) + 1 := by omega
        rw [if_pos h, if_pos h2, h3, List.getD_cons_succ]
      · have h2 : ¬ (a ≤ k ∧ k < a + (rest.length + 1)) := by omega
        rw [if_neg h, if_neg h2, if_neg hka]

@[simp] theorem Memory.read_nil (c : Config) (a : Nat) : Memory.read c [] a = resetByte c a := rfl

/-! ## The canonical form -/

theorem Memory.wf_nil (c : Config) : Memory.wf c [] := by simp [Memory.wf]

theorem Memory.wf_filter (h : Memory.wf c m) (f : Host.Cell → Bool) : Memory.wf c (m.filter f) :=
  ⟨h.1.filter _, fun p hp => h.2 p (List.mem_filter.1 hp).1⟩

theorem Memory.mem_put {a : Nat} {b : Byte} {p : Host.Cell} (h : p ∈ Memory.put a b m) : p = (a, b) ∨ p ∈ m := by
  induction m with
  | nil => simpa [Memory.put] using h
  | cons q rest ih =>
    simp only [Memory.put] at h
    split at h
    · simpa using h
    · split at h
      · rcases List.mem_cons.1 h with h | h
        · exact .inl h
        · exact .inr (List.mem_cons_of_mem _ h)
      · rcases List.mem_cons.1 h with h | h
        · exact .inr (by simp [h])
        · exact (ih h).imp_right (List.mem_cons_of_mem _)

theorem Memory.put_sorted (a : Nat) (b : Byte) (h : m.Pairwise (fun p q => p.1 < q.1)) :
    (Memory.put a b m).Pairwise (fun p q => p.1 < q.1) := by
  induction m with
  | nil => simp [Memory.put]
  | cons q rest ih =>
    have hq := List.pairwise_cons.1 h
    simp only [Memory.put]
    split
    · rename_i hlt
      refine List.pairwise_cons.2 ⟨?_, h⟩
      intro p hp
      rcases List.mem_cons.1 hp with rfl | hp
      · exact hlt
      · exact Nat.lt_trans hlt (hq.1 p hp)
    · split
      · rename_i _ heq
        exact List.pairwise_cons.2 ⟨fun p hp => by simpa [heq] using hq.1 p hp, hq.2⟩
      · rename_i hge hne
        refine List.pairwise_cons.2 ⟨?_, ih hq.2⟩
        intro p hp
        rcases Memory.mem_put hp with rfl | hp
        · show q.1 < a; omega
        · exact hq.1 p hp

/-- A write to an address that exists keeps the canonical form. -/
theorem Memory.wf_write (h : Memory.wf c m) {a : Nat} (ha : a < memSize) (b : Byte) :
    Memory.wf c (Memory.write c m a b) := by
  unfold Memory.write
  split
  · exact Memory.wf_filter h _
  · rename_i hb
    refine ⟨Memory.put_sorted a b h.1, fun p hp => ?_⟩
    rcases Memory.mem_put hp with rfl | hp
    · exact ⟨ha, hb⟩
    · exact h.2 p hp

/-- A run of writes to addresses that exist keeps the canonical form. -/
theorem Memory.wf_writeList (bytes : List Byte) {m : Memory} (h : Memory.wf c m) {a : Nat}
    (ha : a + bytes.length ≤ memSize) : Memory.wf c (Memory.writeList c m a bytes) := by
  induction bytes generalizing m a with
  | nil => exact h
  | cons b rest ih =>
    simp only [List.length_cons] at ha
    exact ih (Memory.wf_write h (by omega) b) (by omega)

theorem Memory.lookup_eq_none_of_lt {m : Memory} {k : Nat} (h : ∀ p ∈ m, k < p.1) : m.lookup k = none := by
  induction m with
  | nil => rfl
  | cons p rest ih =>
    have hp : k ≠ p.1 := Nat.ne_of_lt (h p (by simp))
    rw [show p = (p.1, p.2) from rfl, Memory.lookup_cons, if_neg hp]
    exact ih fun q hq => h q (List.mem_cons_of_mem _ hq)

/-- In canonical form a listed address never reads as it would unlisted, so the contents determine the list. -/
theorem Memory.ext_of_read : ∀ {m m' : Memory}, Memory.wf c m → Memory.wf c m' →
    (∀ a, Memory.read c m a = Memory.read c m' a) → m = m'
  | [], [], _, _, _ => rfl
  | [], (qa, qb) :: rest', _, h', hr => by
    have h1 := h'.2 (qa, qb) (by simp)
    have h2 := hr qa
    simp [Memory.read] at h2
    exact absurd h2.symm h1.2
  | (pa, pb) :: rest, [], h, _, hr => by
    have h1 := h.2 (pa, pb) (by simp)
    have h2 := hr pa
    simp [Memory.read] at h2
    exact absurd h2 h1.2
  | (pa, pb) :: rest, (qa, qb) :: rest', h, h', hr => by
    have hp := h.2 (pa, pb) (by simp)
    have hq := h'.2 (qa, qb) (by simp)
    have hs := List.pairwise_cons.1 h.1
    have hs' := List.pairwise_cons.1 h'.1
    have hkey : pa = qa := by
      rcases Nat.lt_trichotomy pa qa with hlt | heq | hlt
      · have hn : (((qa, qb) :: rest' : Memory)).lookup pa = none :=
          Memory.lookup_eq_none_of_lt fun p hp' => by
            rcases List.mem_cons.1 hp' with rfl | hp'
            · exact hlt
            · exact Nat.lt_trans hlt (hs'.1 p hp')
        have h2 := hr pa
        simp only [Memory.read, hn] at h2
        simp at h2
        exact absurd h2 hp.2
      · exact heq
      · have hn : (((pa, pb) :: rest : Memory)).lookup qa = none :=
          Memory.lookup_eq_none_of_lt fun p hp' => by
            rcases List.mem_cons.1 hp' with rfl | hp'
            · exact hlt
            · exact Nat.lt_trans hlt (hs.1 p hp')
        have h2 := hr qa
        simp only [Memory.read, hn] at h2
        simp at h2
        exact absurd h2.symm hq.2
    subst hkey
    have hb : pb = qb := by simpa [Memory.read] using hr pa
    subst hb
    have hrest : rest = rest' := by
      refine Memory.ext_of_read ⟨hs.2, fun p hp => h.2 p (List.mem_cons_of_mem _ hp)⟩
        ⟨hs'.2, fun p hp => h'.2 p (List.mem_cons_of_mem _ hp)⟩ fun a => ?_
      by_cases ha : a = pa
      · subst ha
        have h1 : rest.lookup a = none := Memory.lookup_eq_none_of_lt fun p hp => hs.1 p hp
        have h2 : rest'.lookup a = none := Memory.lookup_eq_none_of_lt fun p hp => hs'.1 p hp
        simp [Memory.read, h1, h2]
      · have h1 := hr a
        simpa [Memory.read, Memory.lookup_cons, ha] using h1
    rw [hrest]

end Sys2Proof.Machine
end

