-- ==== Sys2Proof/Laws/Ops.lean ====
section
/-! SUPPORT. One lemma per shared operation that says everything it can do: the stack, the range check, reading and
storing a run of bytes, raising an error, the transactions. -/

namespace Sys2Proof.Machine

/-! ## The stack (R124, R125) -/

/-- `push` succeeds below 16 levels, writing one slot and SP, and nothing else. -/
theorem State.push_ok {s : State} (w : Word) (h : s.sp.val < 16) :
    s.push w = .ok { s with stack := s.stack.set s.sp.val w, sp := ⟨s.sp.val + 1, by omega⟩ } := by
  simp [State.push, h]

theorem State.push_full {s : State} (w : Word) (h : s.sp = 16) : s.push w = .error .stackOverflow := by
  simp [State.push, h]

/-- `pop` succeeds above 0 levels, writing SP and nothing else. -/
theorem State.pop_ok {s : State} (h : 0 < s.sp.val) :
    s.pop = .ok (s.stack[s.sp.val - 1]'(by omega), { s with sp := ⟨s.sp.val - 1, by omega⟩ }) := by
  simp [State.pop, h]

theorem State.pop_empty {s : State} (h : s.sp = 0) : s.pop = .error .stackUnderflow := by
  simp [State.pop, h]

/-! ## The range check (R54, R58) -/

theorem rangeFault_eq_none_iff {a n : Nat} : rangeFault a n = none ↔ n = 0 ∨ a + n ≤ memSize := by
  unfold rangeFault
  split <;> simp <;> omega

theorem rangeFault_eq_some_iff {a n addr : Nat} :
    rangeFault a n = some addr ↔ 0 < n ∧ memSize < a + n ∧ addr = max a memSize := by
  unfold rangeFault
  split
  · simp only [Option.some.injEq]; omega
  · simp; omega

/-- The recorded address is the lowest one above 0xFFF in the range (R58). -/
theorem rangeFault_lowest {a n addr : Nat} (h : rangeFault a n = some addr) :
    (a ≤ addr ∧ addr < a + n ∧ memSize ≤ addr) ∧ ∀ k, a ≤ k → k < a + n → memSize ≤ k → addr ≤ k := by
  rw [rangeFault_eq_some_iff] at h
  refine ⟨by omega, fun k _ _ _ => by omega⟩

/-! ## Reading a run of bytes -/

theorem State.memRead_ok {s : State} {a n : Nat} (h : n = 0 ∨ a + n ≤ memSize) :
    s.memRead a n = .ok ((List.range n).map fun k => s.readByte (a + k)) := by
  simp [State.memRead, rangeFault_eq_none_iff.2 h]

theorem State.memRead_error {s : State} {a n : Nat} (h : 0 < n) (h' : memSize < a + n) :
    s.memRead a n = .error (max a memSize) := by
  simp [State.memRead, rangeFault_eq_some_iff.2 ⟨h, h', rfl⟩]

/-! ## Storing a run of bytes -/

/-- A store of one byte changes memory and nothing else. -/
theorem State.writeByte_eq (s : State) (a : Nat) (b : Byte) : ∃ m, s.writeByte a b = { s with mem := m } := by
  unfold State.writeByte
  split
  · exact ⟨s.mem, rfl⟩
  · exact ⟨_, rfl⟩

/-- A store of a run of bytes changes memory and nothing else. -/
theorem State.writeBytes_eq (bytes : List Byte) (s : State) (a : Nat) :
    ∃ m, s.writeBytes a bytes = { s with mem := m } := by
  induction bytes generalizing s a with
  | nil => exact ⟨s.mem, rfl⟩
  | cons b rest ih =>
    obtain ⟨m, hm⟩ := s.writeByte_eq a b
    obtain ⟨m', hm'⟩ := ih (s.writeByte a b) (a + 1)
    exact ⟨m', by rw [State.writeBytes, hm', hm]⟩

@[simp] theorem State.storeDiscarded_writeByte (s : State) (a k : Nat) (b : Byte) :
    (s.writeByte a b).storeDiscarded k = s.storeDiscarded k := by
  obtain ⟨m, hm⟩ := s.writeByte_eq a b
  rw [hm]; rfl

theorem State.readByte_writeByte (s : State) (a k : Nat) (b : Byte) :
    (s.writeByte a b).readByte k = if k = a ∧ s.storeDiscarded k = false then b else s.readByte k := by
  unfold State.writeByte
  split
  · rename_i h
    by_cases hk : k = a <;> simp [hk, h]
  · rename_i h
    show Memory.read s.cfg (Memory.write s.cfg s.mem a b) k = _
    rw [Memory.read_write]
    by_cases hk : k = a
    · simp [hk, h]
    · simp [hk, State.readByte]

/-- A read after a run of bytes is stored: a byte of the run that is not discarded, or what was there (R53, R56). -/
theorem State.readByte_writeBytes (bytes : List Byte) (s : State) (a k : Nat) :
    (s.writeBytes a bytes).readByte k =
      if a ≤ k ∧ k < a + bytes.length ∧ s.storeDiscarded k = false then bytes.getD (k - a) 0 else s.readByte k := by
  induction bytes generalizing s a with
  | nil => simp only [State.writeBytes, List.length_nil]; split <;> [omega; rfl]
  | cons b rest ih =>
    rw [State.writeBytes, ih, State.storeDiscarded_writeByte, State.readByte_writeByte, List.length_cons]
    by_cases hd : s.storeDiscarded k = false
    · by_cases hka : k = a
      · subst hka
        have : ¬ (k + 1 ≤ k) := by omega
        simp [hd]
      · by_cases h : a + 1 ≤ k ∧ k < a + 1 + rest.length
        · have h2 : a ≤ k ∧ k < a + (rest.length + 1) := by omega
          have h3 : k - a = (k - (a + 1)) + 1 := by omega
          rw [if_pos ⟨h.1, h.2, hd⟩, if_pos ⟨h2.1, h2.2, hd⟩, h3, List.getD_cons_succ]
        · rw [if_neg (fun h' => h ⟨h'.1, h'.2.1⟩), if_neg (fun h' => hka h'.1), if_neg (fun h' => h (by omega))]
    · rw [if_neg (fun h' => hd h'.2.2), if_neg (fun h' => hd h'.2), if_neg (fun h' => hd h'.2.2)]

theorem State.wf_writeByte {s : State} (h : Memory.wf s.cfg s.mem) {a : Nat} (ha : a < memSize) (b : Byte) :
    Memory.wf (s.writeByte a b).cfg (s.writeByte a b).mem := by
  unfold State.writeByte
  split
  · exact h
  · exact Memory.wf_write h ha b

/-- Stores keep memory's canonical form. -/
theorem State.wf_writeBytes (bytes : List Byte) {s : State} (h : Memory.wf s.cfg s.mem) {a : Nat}
    (ha : a + bytes.length ≤ memSize) : Memory.wf (s.writeBytes a bytes).cfg (s.writeBytes a bytes).mem := by
  induction bytes generalizing s a with
  | nil => exact h
  | cons b rest ih =>
    simp only [List.length_cons] at ha
    exact ih (State.wf_writeByte h (by omega) b) (by omega)

theorem State.memWrite_ok {s : State} {a : Nat} {bytes : List Byte} (h : a + bytes.length ≤ memSize) :
    s.memWrite a bytes = .ok (s.writeBytes a bytes) := by
  simp [State.memWrite, rangeFault_eq_none_iff.2 (.inr h)]

theorem State.memWrite_error {s : State} {a : Nat} {bytes : List Byte} (h : 0 < bytes.length)
    (h' : memSize < a + bytes.length) : s.memWrite a bytes = .error (max a memSize) := by
  simp [State.memWrite, rangeFault_eq_some_iff.2 ⟨h, h', rfl⟩]

/-! ## Operands -/

@[simp] theorem decimalDigits_length (b : Byte) : (decimalDigits b).length = 3 := rfl

@[simp] theorem State.regsUpTo_length (s : State) (x : Reg) : (s.regsUpTo x).length = x.val + 1 := by
  have := x.isLt
  simp [State.regsUpTo]

theorem State.regsUpTo_getD (s : State) (x : Reg) {k : Nat} (h : k ≤ x.val) :
    (s.regsUpTo x).getD k 0 = s.v[k]'(by have := x.isLt; omega) := by
  have hx := x.isLt
  have hk : k < (s.v.toList.take (x.val + 1)).length := by simp; omega
  unfold State.regsUpTo
  rw [List.getD_eq_getElem _ _ hk]
  simp

/-! ## Frames -/

/-- A state that differs in memory alone. -/
theorem onlyChanges_mem (s : State) (m : Memory) : OnlyChanges [] [.mem] s { s with mem := m } :=
  ⟨fun _ _ => rfl, fun p hp => by cases p <;> first | rfl | simp at hp⟩

/-- Raising an error changes the run state and the events alone, as R210 says. -/
theorem raise_raisesError (s : State) (kind : ErrorKind) (op : Word) (addr : Nat) :
    RaisesError kind op addr s (s.raise kind op addr) :=
  ⟨rfl, rfl, fun _ _ => rfl, fun p hp => by cases p <;> first | rfl | exact fun _ => rfl | simp at hp⟩

/-! ## The transactions -/

/-- What memory holds after `load` (R108). -/
theorem readByte_load {image : List Byte} {s t : State} (h : load image s = .next t) (a : Nat) :
    image.length ≤ maxImageLength ∧ t.readByte a =
      if a < programBase then s.readByte a
      else if a < programBase + image.length then image.getD (a - programBase) 0
      else resetByte s.cfg a := by
  unfold load at h
  split at h
  · rename_i hl
    cases h
    refine ⟨hl, ?_⟩
    show Memory.read s.cfg (Memory.writeList s.cfg _ programBase image) a = _
    rw [Memory.read_writeList]
    by_cases h1 : a < programBase
    · rw [if_neg (by omega), if_pos h1, Memory.read, Memory.lookup_filter (fun q => decide (q < programBase))]
      simp [h1, State.readByte, Memory.read]
    · rw [if_neg h1]
      by_cases h2 : a < programBase + image.length
      · rw [if_pos ⟨by omega, h2⟩, if_pos h2]
      · rw [if_neg (fun h => h2 h.2), if_neg h2, Memory.read,
          Memory.lookup_filter (fun q => decide (q < programBase))]
        simp [h1]
  · cases h

/-- What memory holds after `reset()` (R230). -/
theorem readByte_hostReset (s : State) (a : Nat) :
    s.hostReset.readByte a =
      if programBase ≤ a ∧ a < programBase + s.image.length then s.image.getD (a - programBase) 0
      else resetByte s.cfg a := by
  show Memory.read s.cfg (Memory.writeList s.cfg [] programBase s.image) a = _
  rw [Memory.read_writeList, Memory.read_nil]

end Sys2Proof.Machine
end

