-- ==== Sys2Proof/Laws/Composer.lean ====
section
/-! SUPPORT. What the composer does to each byte of the buffer: the part a row lays on a byte, and that a draw XORs the
parts of its rows on. -/

namespace Sys2Proof.Machine

/-- The part row `r` of a sprite at (x, y) lays on byte `j` (R192, R193). -/
def rowPart (x y r : Nat) (b : Byte) (j : Fin 256) : Byte :=
  if j = wrapIndex (rowBase x y r) then highPart x b
  else if j = wrapIndex (rowBase x y r + 1) then lowPart x b else 0

/-- The XOR of the parts all the rows from `r` on lay on byte `j`. -/
def rowsPart (x y : Nat) : Nat → List Byte → Fin 256 → Byte
  | _, [], _ => 0
  | r, b :: rest, j => rowPart x y r b j ^^^ rowsPart x y (r + 1) rest j

theorem rowBase_add (x y r k : Nat) : rowBase x y (r + k) = rowBase x y r + 8 * k := by
  unfold rowBase; omega

/-- A row's two bytes are different (R192). -/
theorem wrapIndex_succ_ne (n : Nat) : wrapIndex (n + 1) ≠ wrapIndex n := by
  intro h
  have := congrArg Fin.val h
  simp only [wrapIndex] at this
  omega

theorem xorByte_get (f : Frame) (j k : Fin 256) (part : Byte) :
    (xorByte f j part)[k.val] = if k = j then f[k.val] ^^^ part else f[k.val] := by
  by_cases h : k = j
  · subst h; simp [xorByte]
  · have h' : j.val ≠ k.val := fun e => h (Fin.ext e.symm)
    simp [xorByte, h', h]

/-- One row XORs its part onto each byte. -/
theorem drawRow_get (x y r : Nat) (b : Byte) (f : Frame) (j : Fin 256) :
    (drawRow x y r b f).1[j.val] = f[j.val] ^^^ rowPart x y r b j := by
  have hne := wrapIndex_succ_ne (rowBase x y r)
  simp only [drawRow, xorByte_get, rowPart]
  by_cases h1 : j = wrapIndex (rowBase x y r + 1)
  · subst h1
    simp [hne]
  · by_cases h0 : j = wrapIndex (rowBase x y r)
    · subst h0
      simp [h1]
    · simp [h0, h1]

/-- A row collides when its part meets a 1 of some byte (R196). -/
theorem drawRow_collides (x y r : Nat) (b : Byte) (f : Frame) :
    (drawRow x y r b f).2 = true ↔ ∃ j : Fin 256, f[j.val] &&& rowPart x y r b j ≠ 0 := by
  have hne := wrapIndex_succ_ne (rowBase x y r)
  simp only [drawRow, partHits, Bool.or_eq_true, bne_iff_ne]
  constructor
  · rintro (h | h)
    · exact ⟨wrapIndex (rowBase x y r), by simpa [rowPart] using h⟩
    · exact ⟨wrapIndex (rowBase x y r + 1), by simpa [rowPart, hne] using h⟩
  · rintro ⟨j, h⟩
    unfold rowPart at h
    split at h
    · subst j; exact .inl h
    · split at h
      · subst j; exact .inr h
      · simp at h

/-- The rows of a draw XOR their parts onto each byte (R195). -/
theorem drawRows_get (x y : Nat) (sprite : List Byte) (r : Nat) (f : Frame) (j : Fin 256) :
    (drawRows x y r sprite f).1[j.val] = f[j.val] ^^^ rowsPart x y r sprite j := by
  induction sprite generalizing r f with
  | nil => simp [drawRows, rowsPart]
  | cons b rest ih =>
    show (drawRows x y (r + 1) rest (drawRow x y r b f).1).1[j.val] = _
    rw [ih, drawRow_get, rowsPart, BitVec.xor_assoc]

theorem drawRows_cons_collides (x y r : Nat) (b : Byte) (rest : List Byte) (f : Frame) :
    (drawRows x y r (b :: rest) f).2 =
      ((drawRow x y r b f).2 || (drawRows x y (r + 1) rest (drawRow x y r b f).1).2) := rfl

/-- Two buffers with the same bytes are the same. -/
theorem frame_ext {f g : Frame} (h : ∀ j : Fin 256, f[j.val] = g[j.val]) : f = g :=
  Vector.ext fun i hi => h ⟨i, hi⟩

end Sys2Proof.Machine
end

