-- ==== Sys2Proof/Laws/Decode.lean ====
section
/-! SUPPORT. The decoder's masks as arithmetic on the word, the words of the six formats as numbers, and what the fields
read from them. -/

namespace Sys2Proof

/-! ## Masked words -/

theorem toNat_and_F000 (op : Word) : (op &&& 0xF000#16).toNat = op.toNat / 4096 * 4096 := by
  have h : op &&& 0xF000#16 = (op >>> 12) <<< 12 := by
    ext i hi
    interval_cases i <;> simp
  rw [h, BitVec.toNat_shiftLeft, BitVec.toNat_ushiftRight, Nat.shiftRight_eq_div_pow, Nat.shiftLeft_eq]
  have := op.isLt
  omega

theorem toNat_and_000F (op : Word) : (op &&& 0x000F#16).toNat = op.toNat % 16 := by
  rw [BitVec.toNat_and]
  exact Nat.and_two_pow_sub_one_eq_mod _ 4

theorem toNat_and_00FF (op : Word) : (op &&& 0x00FF#16).toNat = op.toNat % 256 := by
  rw [BitVec.toNat_and]
  exact Nat.and_two_pow_sub_one_eq_mod _ 8

theorem toNat_and_F00F (op : Word) : (op &&& 0xF00F#16).toNat = op.toNat / 4096 * 4096 + op.toNat % 16 := by
  have h : op &&& 0xF00F#16 = (op &&& 0xF000#16) + (op &&& 0x000F#16) := by
    rw [BitVec.add_eq_or_of_and_eq_zero] <;> (ext i hi; interval_cases i <;> simp)
  rw [h, BitVec.toNat_add, toNat_and_F000, toNat_and_000F]
  have := op.isLt
  omega

theorem toNat_and_F0FF (op : Word) : (op &&& 0xF0FF#16).toNat = op.toNat / 4096 * 4096 + op.toNat % 256 := by
  have h : op &&& 0xF0FF#16 = (op &&& 0xF000#16) + (op &&& 0x00FF#16) := by
    rw [BitVec.add_eq_or_of_and_eq_zero] <;> (ext i hi; interval_cases i <;> simp)
  rw [h, BitVec.toNat_add, toNat_and_F000, toNat_and_00FF]
  have := op.isLt
  omega

/-- A class L word (R74) is looked up by its leading nibble. -/
theorem instructionId_classL {op : Word} (k : Nat) (h : leadingNibble op = k) (hm : maskOf op = 0xF000#16) :
    instructionId op = (decodeTable.lookup (BitVec.ofNat 16 (k * 4096))).getD unknownId := by
  have : op &&& maskOf op = BitVec.ofNat 16 (k * 4096) := by
    apply BitVec.eq_of_toNat_eq
    rw [hm, toNat_and_F000, ← h, BitVec.toNat_ofNat]
    have := op.isLt
    simp only [leadingNibble]
    omega
  rw [instructionId, this]

/-- A class T word (R74) is looked up by its leading and trailing nibbles. -/
theorem instructionId_classT {op : Word} (k : Nat) (h : leadingNibble op = k) (hm : maskOf op = 0xF00F#16) :
    instructionId op = (decodeTable.lookup (BitVec.ofNat 16 (k * 4096 + op.toNat % 16))).getD unknownId := by
  have : op &&& maskOf op = BitVec.ofNat 16 (k * 4096 + op.toNat % 16) := by
    apply BitVec.eq_of_toNat_eq
    rw [hm, toNat_and_F00F, ← h, BitVec.toNat_ofNat]
    have := op.isLt
    simp only [leadingNibble]
    omega
  rw [instructionId, this]

/-- A class B word (R74) is looked up by its leading nibble and low byte. -/
theorem instructionId_classB {op : Word} (k : Nat) (h : leadingNibble op = k) (hm : maskOf op = 0xF0FF#16) :
    instructionId op = (decodeTable.lookup (BitVec.ofNat 16 (k * 4096 + op.toNat % 256))).getD unknownId := by
  have : op &&& maskOf op = BitVec.ofNat 16 (k * 4096 + op.toNat % 256) := by
    apply BitVec.eq_of_toNat_eq
    rw [hm, toNat_and_F0FF, ← h, BitVec.toNat_ofNat]
    have := op.isLt
    simp only [leadingNibble]
    omega
  rw [instructionId, this]

/-! ## The formats as numbers -/

theorem toNat_formatA {op addr : Nat} (ho : op < 16) (ha : addr < 4096) :
    (formatA op addr).toNat = op * 4096 + addr := by
  rw [formatA, BitVec.toNat_ofNat]; omega

theorem toNat_formatRB {op : Nat} (ho : op < 16) (x : Reg) (nn : Byte) :
    (formatRB op x nn).toNat = op * 4096 + x.val * 256 + nn.toNat := by
  have := x.isLt
  have := nn.isLt
  rw [formatRB, BitVec.toNat_ofNat]; omega

theorem toNat_formatRR {op t : Nat} (ho : op < 16) (ht : t < 16) (x y : Reg) :
    (formatRR op x y t).toNat = op * 4096 + x.val * 256 + y.val * 16 + t := by
  have := x.isLt
  have := y.isLt
  rw [formatRR, BitVec.toNat_ofNat]; omega

theorem toNat_formatRS {op sub : Nat} (ho : op < 16) (hs : sub < 256) (x : Reg) :
    (formatRS op x sub).toNat = op * 4096 + x.val * 256 + sub := by
  have := x.isLt
  rw [formatRS, BitVec.toNat_ofNat]; omega

/-! ## Two bytes (R54, R70) -/

/-- Two bytes decode to what the word they hold decodes to, with no byte left. -/
theorem decodeBytes_two (a b : Byte) (i : Instr) :
    decodeBytes [a, b] = .ok (i, []) ↔ decode (wordOfBytes a b) = .ok i := by
  simp only [decodeBytes]
  split <;> simp_all

end Sys2Proof
end

