-- ==== Sys2Proof/Laws/Frames.lean ====
section
/-! SUPPORT. The frame relation composes, and the frame of every state update, once. -/

namespace Sys2Proof

open Sys2Proof.Machine

/-! ## The relation -/

theorem OnlyChanges.refl (regs : List Reg) (parts : List Part) (s : State) : OnlyChanges regs parts s s :=
  ⟨fun _ _ => rfl, fun p _ => by cases p <;> first | exact fun _ => rfl | rfl⟩

theorem OnlyChanges.mono {regs regs' : List Reg} {parts parts' : List Part} {s t : State}
    (h : OnlyChanges regs parts s t) (hr : ∀ r ∈ regs, r ∈ regs') (hp : ∀ p ∈ parts, p ∈ parts') :
    OnlyChanges regs' parts' s t :=
  ⟨fun r hr' => h.1 r fun h' => hr' (hr r h'), fun p hp' => h.2 p fun h' => hp' (hp p h')⟩

theorem Part.same_trans {p : Part} {s t u : State} (h : p.same s t) (h' : p.same t u) : p.same s u := by
  cases p <;> first | exact fun a => (h' a).trans (h a) | exact Eq.trans h' h

theorem OnlyChanges.trans {regs regs' : List Reg} {parts parts' : List Part} {s t u : State}
    (h : OnlyChanges regs parts s t) (h' : OnlyChanges regs' parts' t u) :
    OnlyChanges (regs ++ regs') (parts ++ parts') s u := by
  refine ⟨fun r hr => ?_, fun p hp => ?_⟩
  · simp only [List.mem_append, not_or] at hr
    rw [h'.1 r hr.2, h.1 r hr.1]
  · simp only [List.mem_append, not_or] at hp
    exact Part.same_trans (h.2 p hp.1) (h'.2 p hp.2)

/-! ## One update at a time -/

theorem onlyChanges_setV (s : State) (x : Reg) (b : Byte) : OnlyChanges [x] [] s (s.setV x b) :=
  ⟨fun r hr => State.getV_setV_ne s b (by simpa using hr), fun p _ => by cases p <;> simp [Part.same]⟩

theorem onlyChanges_setFlagThenV (s : State) (flag : Byte) (x : Reg) (b : Byte) :
    OnlyChanges [x, vF] [] s (s.setFlagThenV flag x b) :=
  ((onlyChanges_setV s vF flag).trans (onlyChanges_setV _ x b)).mono (by simp) (by simp)

theorem onlyChanges_setRegsUpTo (s : State) (k : Reg) (f : Nat → Byte) :
    OnlyChanges ((List.finRange 16).filter fun r => r.val ≤ k.val) [] s (s.setRegsUpTo k f) :=
  ⟨fun r hr => by rw [State.getV_setRegsUpTo, if_neg (by simpa using hr)], fun p _ => by cases p <;> simp [Part.same]⟩

theorem onlyChanges_setPC (s : State) (w : Word) : OnlyChanges [] [.pc] s (s.setPC w) :=
  ⟨fun _ _ => rfl, fun p hp => by cases p <;> simp [Part.same] at hp ⊢⟩

theorem onlyChanges_advancePC (s : State) : OnlyChanges [] [.pc] s s.advancePC := onlyChanges_setPC s _

theorem onlyChanges_skipIf (s : State) (c : Bool) : OnlyChanges [] [.pc] s (s.skipIf c) := by
  rw [State.skipIf_eq]; exact onlyChanges_setPC s _

theorem onlyChanges_setI (s : State) (w : Word) : OnlyChanges [] [.i] s (s.setI w) :=
  ⟨fun _ _ => rfl, fun p hp => by cases p <;> simp [Part.same] at hp ⊢⟩

theorem onlyChanges_setDT (s : State) (b : Byte) : OnlyChanges [] [.dt] s (s.setDT b) :=
  ⟨fun _ _ => rfl, fun p hp => by cases p <;> simp [Part.same] at hp ⊢⟩

theorem onlyChanges_setST (s : State) (b : Byte) : OnlyChanges [] [.st] s (s.setST b) :=
  ⟨fun _ _ => rfl, fun p hp => by cases p <;> simp [Part.same] at hp ⊢⟩

theorem onlyChanges_setRun (s : State) (r : RunState) : OnlyChanges [] [.run] s (s.setRun r) :=
  ⟨fun _ _ => rfl, fun p hp => by cases p <;> simp [Part.same] at hp ⊢⟩

theorem onlyChanges_setFb (s : State) (f : Frame) : OnlyChanges [] [.fb] s (s.setFb f) :=
  ⟨fun _ _ => rfl, fun p hp => by cases p <;> simp [Part.same] at hp ⊢⟩

theorem onlyChanges_emit (s : State) (e : Event) : OnlyChanges [] [.events] s (s.emit e) :=
  ⟨fun _ _ => rfl, fun p hp => by cases p <;> simp [Part.same] at hp ⊢⟩

theorem onlyChanges_halt (s : State) (err : HaltRecord) : OnlyChanges [] [.run, .events] s (s.halt err) :=
  ((onlyChanges_setRun s _).trans (onlyChanges_emit _ _)).mono (by simp) (by simp)

theorem onlyChanges_raise (s : State) (kind : ErrorKind) (op : Word) (addr : Nat) :
    OnlyChanges [] [.run, .events] s (s.raise kind op addr) := onlyChanges_halt s _

theorem onlyChanges_raiseFetch (s : State) (addr : Nat) : OnlyChanges [] [.run, .events] s (s.raiseFetch addr) :=
  onlyChanges_halt s _

theorem onlyChanges_tookDraw (s : State) : OnlyChanges [] [.draws] s s.tookDraw :=
  ⟨fun _ _ => rfl, fun p hp => by cases p <;> simp [Part.same] at hp ⊢⟩

theorem onlyChanges_tick (s : State) : OnlyChanges [] [.dt, .st] s s.tick :=
  ⟨fun _ _ => rfl, fun p hp => by cases p <;> simp [Part.same] at hp ⊢⟩

theorem onlyChanges_setKeys (s : State) (keys : Vector Bool 16) : OnlyChanges [] [.keys] s (s.setKeys keys) :=
  ⟨fun _ _ => rfl, fun p hp => by cases p <;> simp [Part.same] at hp ⊢⟩

theorem onlyChanges_schedule (s : State) (l : List Transaction) :
    OnlyChanges [] [.schedule] s { s with schedule := l } :=
  ⟨fun _ _ => rfl, fun p hp => by cases p <;> first | exact fun _ => rfl | simp [Part.same] at hp ⊢⟩

theorem onlyChanges_writeBytes (s : State) (a : Nat) (bytes : List Byte) :
    OnlyChanges [] [.mem] s (s.writeBytes a bytes) := by
  obtain ⟨m, hm⟩ := s.writeBytes_eq bytes a
  rw [hm]; exact onlyChanges_mem s m

theorem onlyChanges_push {s s' : State} {w : Word} (h : s.push w = .ok s') : OnlyChanges [] [.sp, .stack] s s' := by
  unfold State.push at h
  split at h <;> cases h
  exact ⟨fun _ _ => rfl, fun p hp => by cases p <;> first | exact fun _ => rfl | simp [Part.same] at hp ⊢⟩

theorem onlyChanges_pop {s s' : State} {w : Word} (h : s.pop = .ok (w, s')) : OnlyChanges [] [.sp] s s' := by
  unfold State.pop at h
  split at h <;> cases h
  exact ⟨fun _ _ => rfl, fun p hp => by cases p <;> first | exact fun _ => rfl | simp [Part.same] at hp ⊢⟩

end Sys2Proof
end

