-- ==== Sys2Proof/Laws/Cycle.lean ====
section
/-! SUPPORT. What a fetch, a cycle and a step can do, each said once. -/

namespace Sys2Proof.Machine

/-! ## The fetch -/

theorem toNat_wordOfBytes (a b : Byte) : (wordOfBytes a b).toNat = a.toNat * 256 + b.toNat := by
  unfold wordOfBytes
  rw [BitVec.toNat_append, ← Nat.shiftLeft_add_eq_or_of_lt b.isLt, Nat.shiftLeft_eq]

theorem State.fetch_ok {s : State} (h : s.pc.toNat + 1 ≤ 0xFFF) :
    s.fetch = .ok (wordOfBytes (s.readByte s.pc.toNat) (s.readByte (s.pc.toNat + 1))) := by
  unfold State.fetch
  rw [rangeFault_eq_none_iff.2 (.inr (by simp only [memSize]; omega))]

theorem State.fetch_error {s : State} (h : 0xFFF ≤ s.pc.toNat) : s.fetch = .error (max s.pc.toNat 0x1000) := by
  unfold State.fetch
  rw [rangeFault_eq_some_iff.2 ⟨by omega, by simp only [memSize]; omega, rfl⟩]

/-- The fetch reads PC, memory and the parameters alone. -/
theorem State.fetch_congr {s t : State} (hp : t.pc = s.pc) (hm : t.mem = s.mem) (hc : t.cfg = s.cfg) :
    t.fetch = s.fetch := by
  simp only [State.fetch, State.readByte, hp, hm, hc]

/-- A fetch succeeds only within memory. -/
theorem State.pc_le_of_fetch_ok {s : State} {op : Word} (h : s.fetch = .ok op) : s.pc.toNat ≤ 0xFFE := by
  by_contra hc
  rw [State.fetch_error (by omega)] at h
  cases h

/-- After a fetch, the instruction that stands at PC is the one the opcode decodes to. -/
theorem fetches_iff {s : State} {op : Word} (h : s.fetch = .ok op) (i : Instr) : Fetches s i ↔ decode op = .ok i := by
  have hp := State.pc_le_of_fetch_ok h
  rw [State.fetch_ok (by omega)] at h
  cases h
  rw [Fetches, decodeBytes_two]
  exact and_iff_right hp

/-- A fetch that faults finds no instruction. -/
theorem not_fetches_of_error {s : State} {addr : Nat} (h : s.fetch = .error addr) (i : Instr) : ¬ Fetches s i := by
  intro hf
  rw [State.fetch_ok (by have := hf.1; omega)] at h
  cases h

/-! ## The cycle -/

theorem cycle_idle {s : State} (h : s.run ≠ .running) : cycle s = .next s := by
  unfold cycle
  split
  · rename_i h'; exact absurd h' h
  · rfl
  · rfl

theorem cycle_fetched {s : State} {op : Word} (h : s.run = .running) (hf : s.fetch = .ok op) :
    cycle s = executeWord op s.advancePC := by
  unfold cycle; rw [h]; simp only [hf]

theorem cycle_unfetched {s : State} {addr : Nat} (h : s.run = .running) (hf : s.fetch = .error addr) :
    cycle s = .next (s.raiseFetch addr) := by
  unfold cycle; rw [h]; simp only [hf]

theorem executeWord_ok {op : Word} {i : Instr} (h : decode op = .ok i) (s : State) :
    executeWord op s = exec i s := by
  simp only [executeWord, h]

theorem executeWord_error {op : Word} {e : DecodeReject} (h : decode op = .error e) (s : State) :
    executeWord op s = .next (s.raise .unknownOpcode op 0) := by
  simp only [executeWord, h]

/-- Everything a cycle that answers a next state can have done. -/
theorem cycle_cases {s t : State} (h : cycle s = .next t) :
    (s.run ≠ .running ∧ t = s) ∨
    (s.run = .running ∧ ∃ addr, s.fetch = .error addr ∧ t = s.raiseFetch addr) ∨
    (s.run = .running ∧ ∃ op e, s.fetch = .ok op ∧ decode op = .error e ∧
      t = s.advancePC.raise .unknownOpcode op 0) ∨
    (s.run = .running ∧ ∃ op i, s.fetch = .ok op ∧ decode op = .ok i ∧ exec i s.advancePC = .next t) := by
  by_cases hr : s.run = .running
  · cases hf : s.fetch with
    | error addr =>
      rw [cycle_unfetched hr hf] at h
      exact .inr (.inl ⟨hr, addr, rfl, (Host.Outcome.next.inj h).symm⟩)
    | ok op =>
      rw [cycle_fetched hr hf] at h
      cases hd : decode op with
      | error e =>
        rw [executeWord_error hd] at h
        exact .inr (.inr (.inl ⟨hr, op, e, rfl, hd, (Host.Outcome.next.inj h).symm⟩))
      | ok i =>
        rw [executeWord_ok hd] at h
        exact .inr (.inr (.inr ⟨hr, op, i, rfl, hd, h⟩))
  · rw [cycle_idle hr] at h
    exact .inl ⟨hr, (Host.Outcome.next.inj h).symm⟩

/-! ## The step -/

/-- The state a transaction is applied to: the transaction is taken off the schedule. -/
def State.popSchedule (s : State) : State := { s with schedule := s.schedule.tail }

theorem step_eq (s : State) : step s = transact s.nextTransaction s.popSchedule := rfl

/-- Everything `deliverKey` that answers a next state can have done. -/
theorem deliverKey_cases {k : Nat} {s t : State} (h : deliverKey k s = .next t) :
    k < 16 ∧ ((∃ x, s.run = .waitingForKey x ∧ t = (s.setV x (BitVec.ofNat 8 k)).setRun .running) ∨
      ((∀ x, s.run ≠ .waitingForKey x) ∧ t = s)) := by
  unfold deliverKey at h
  split at h
  · rename_i hk
    refine ⟨hk, ?_⟩
    split at h <;> rename_i hr
    · exact .inl ⟨_, hr, (Host.Outcome.next.inj h).symm⟩
    · exact .inr ⟨fun x => by simp [hr], (Host.Outcome.next.inj h).symm⟩
    · exact .inr ⟨fun x => by simp [hr], (Host.Outcome.next.inj h).symm⟩
  · cases h

/-- Everything `load` that answers a next state can have done. -/
theorem load_cases {image : List Byte} {s t : State} (h : load image s = .next t) :
    image.length ≤ maxImageLength ∧
      t = { s with
        mem := Memory.writeList s.cfg (s.mem.filter fun p => p.1 < programBase) programBase image
        image := image } := by
  unfold load at h
  split at h
  · rename_i hl; exact ⟨hl, (Host.Outcome.next.inj h).symm⟩
  · cases h

end Sys2Proof.Machine
end

