-- ==== Sys2Proof/Laws/PerInstr.lean ====
section
/-! SUPPORT. The family LooksUpOwnRow: the word of a well-formed instruction is looked up as that instruction's own row of
the decode table (30_encoding.md R75, R77). One lemma per constructor. -/

namespace Sys2Proof.Laws.LooksUpOwnRow

/-- The encoding of a well-formed instruction selects the instruction's own Id#. -/
def Statement (i : Instr) : Prop := i.wellFormed = true → instructionId (encode i) = i.id

/-- Format A. -/
theorem formatA_id {op addr id : Nat} (ha : addr < 4096) (ho : op < 16)
    (hm : maskOf (BitVec.ofNat 16 (op * 4096)) = 0xF000#16)
    (hi : (decodeTable.lookup (BitVec.ofNat 16 (op * 4096))).getD unknownId = id) :
    instructionId (formatA op addr) = id := by
  have hl : leadingNibble (formatA op addr) = op := by rw [leadingNibble, toNat_formatA ho ha]; omega
  have hl' : leadingNibble (BitVec.ofNat 16 (op * 4096)) = op := by
    rw [leadingNibble, BitVec.toNat_ofNat]; omega
  rw [instructionId_classL op hl (by rw [← hm]; simp only [maskOf, hl, hl']), hi]

/-- Format RB. -/
theorem formatRB_id {op id : Nat} (x : Reg) (nn : Byte) (ho : op < 16)
    (hm : maskOf (BitVec.ofNat 16 (op * 4096)) = 0xF000#16)
    (hi : (decodeTable.lookup (BitVec.ofNat 16 (op * 4096))).getD unknownId = id) :
    instructionId (formatRB op x nn) = id := by
  have hx := x.isLt
  have hn := nn.isLt
  have hl : leadingNibble (formatRB op x nn) = op := by rw [leadingNibble, toNat_formatRB ho]; omega
  have hl' : leadingNibble (BitVec.ofNat 16 (op * 4096)) = op := by
    rw [leadingNibble, BitVec.toNat_ofNat]; omega
  rw [instructionId_classL op hl (by rw [← hm]; simp only [maskOf, hl, hl']), hi]

/-- Format RRT. -/
theorem formatRRT_id {op t id : Nat} (x y : Reg) (ho : op < 16) (ht : t < 16)
    (hm : maskOf (BitVec.ofNat 16 (op * 4096)) = 0xF00F#16)
    (hi : (decodeTable.lookup (BitVec.ofNat 16 (op * 4096 + t))).getD unknownId = id) :
    instructionId (formatRR op x y t) = id := by
  have hx := x.isLt
  have hy := y.isLt
  have hl : leadingNibble (formatRR op x y t) = op := by rw [leadingNibble, toNat_formatRR ho ht]; omega
  have hl' : leadingNibble (BitVec.ofNat 16 (op * 4096)) = op := by
    rw [leadingNibble, BitVec.toNat_ofNat]; omega
  have hv : (formatRR op x y t).toNat % 16 = t := by rw [toNat_formatRR ho ht]; omega
  rw [instructionId_classT op hl (by rw [← hm]; simp only [maskOf, hl, hl']), hv, hi]

/-- Format RRN. -/
theorem formatRRN_id {op n id : Nat} (x y : Reg) (ho : op < 16) (hn : n < 16)
    (hm : maskOf (BitVec.ofNat 16 (op * 4096)) = 0xF000#16)
    (hi : (decodeTable.lookup (BitVec.ofNat 16 (op * 4096))).getD unknownId = id) :
    instructionId (formatRR op x y n) = id := by
  have hx := x.isLt
  have hy := y.isLt
  have hl : leadingNibble (formatRR op x y n) = op := by rw [leadingNibble, toNat_formatRR ho hn]; omega
  have hl' : leadingNibble (BitVec.ofNat 16 (op * 4096)) = op := by
    rw [leadingNibble, BitVec.toNat_ofNat]; omega
  rw [instructionId_classL op hl (by rw [← hm]; simp only [maskOf, hl, hl']), hi]

/-- Format RS. -/
theorem formatRS_id {op sub id : Nat} (x : Reg) (ho : op < 16) (hs : sub < 256)
    (hm : maskOf (BitVec.ofNat 16 (op * 4096)) = 0xF0FF#16)
    (hi : (decodeTable.lookup (BitVec.ofNat 16 (op * 4096 + sub))).getD unknownId = id) :
    instructionId (formatRS op x sub) = id := by
  have hx := x.isLt
  have hl : leadingNibble (formatRS op x sub) = op := by rw [leadingNibble, toNat_formatRS ho hs]; omega
  have hl' : leadingNibble (BitVec.ofNat 16 (op * 4096)) = op := by
    rw [leadingNibble, BitVec.toNat_ofNat]; omega
  have hv : (formatRS op x sub).toNat % 256 = sub := by rw [toNat_formatRS ho hs]; omega
  rw [instructionId_classB op hl (by rw [← hm]; simp only [maskOf, hl, hl']), hv, hi]

theorem cls : Statement .cls := fun _ => by decide

theorem ret : Statement .ret := fun _ => by decide

theorem jp (addr : Nat) : Statement (.jp addr) := fun h =>
  formatA_id (of_decide_eq_true h) (by decide) (by decide) rfl

theorem call (addr : Nat) : Statement (.call addr) := fun h =>
  formatA_id (of_decide_eq_true h) (by decide) (by decide) rfl

theorem seByte (x : Reg) (nn : Byte) : Statement (.seByte x nn) := fun _ =>
  formatRB_id x nn (by decide) (by decide) rfl

theorem sneByte (x : Reg) (nn : Byte) : Statement (.sneByte x nn) := fun _ =>
  formatRB_id x nn (by decide) (by decide) rfl

theorem seReg (x y : Reg) : Statement (.seReg x y) := fun _ =>
  formatRRT_id x y (by decide) (by decide) (by decide) rfl

theorem ldByte (x : Reg) (nn : Byte) : Statement (.ldByte x nn) := fun _ =>
  formatRB_id x nn (by decide) (by decide) rfl

theorem addByte (x : Reg) (nn : Byte) : Statement (.addByte x nn) := fun _ =>
  formatRB_id x nn (by decide) (by decide) rfl

theorem ldReg (x y : Reg) : Statement (.ldReg x y) := fun _ =>
  formatRRT_id x y (by decide) (by decide) (by decide) rfl

theorem orReg (x y : Reg) : Statement (.orReg x y) := fun _ =>
  formatRRT_id x y (by decide) (by decide) (by decide) rfl

theorem andReg (x y : Reg) : Statement (.andReg x y) := fun _ =>
  formatRRT_id x y (by decide) (by decide) (by decide) rfl

theorem xorReg (x y : Reg) : Statement (.xorReg x y) := fun _ =>
  formatRRT_id x y (by decide) (by decide) (by decide) rfl

theorem addReg (x y : Reg) : Statement (.addReg x y) := fun _ =>
  formatRRT_id x y (by decide) (by decide) (by decide) rfl

theorem subReg (x y : Reg) : Statement (.subReg x y) := fun _ =>
  formatRRT_id x y (by decide) (by decide) (by decide) rfl

theorem shr (x y : Reg) : Statement (.shr x y) := fun _ =>
  formatRRT_id x y (by decide) (by decide) (by decide) rfl

theorem subnReg (x y : Reg) : Statement (.subnReg x y) := fun _ =>
  formatRRT_id x y (by decide) (by decide) (by decide) rfl

theorem shl (x y : Reg) : Statement (.shl x y) := fun _ =>
  formatRRT_id x y (by decide) (by decide) (by decide) rfl

theorem sneReg (x y : Reg) : Statement (.sneReg x y) := fun _ =>
  formatRRT_id x y (by decide) (by decide) (by decide) rfl

theorem ldI (addr : Nat) : Statement (.ldI addr) := fun h =>
  formatA_id (of_decide_eq_true h) (by decide) (by decide) rfl

theorem jpV0 (addr : Nat) : Statement (.jpV0 addr) := fun h =>
  formatA_id (of_decide_eq_true h) (by decide) (by decide) rfl

theorem rnd (x : Reg) (nn : Byte) : Statement (.rnd x nn) := fun _ =>
  formatRB_id x nn (by decide) (by decide) rfl

theorem drw (x y : Reg) (n : Nat) : Statement (.drw x y n) := fun h =>
  formatRRN_id x y (by decide) (of_decide_eq_true h) (by decide) rfl

theorem skp (x : Reg) : Statement (.skp x) := fun _ =>
  formatRS_id x (by decide) (by decide) (by decide) rfl

theorem sknp (x : Reg) : Statement (.sknp x) := fun _ =>
  formatRS_id x (by decide) (by decide) (by decide) rfl

theorem ldVxDT (x : Reg) : Statement (.ldVxDT x) := fun _ =>
  formatRS_id x (by decide) (by decide) (by decide) rfl

theorem ldVxK (x : Reg) : Statement (.ldVxK x) := fun _ =>
  formatRS_id x (by decide) (by decide) (by decide) rfl

theorem ldDTVx (x : Reg) : Statement (.ldDTVx x) := fun _ =>
  formatRS_id x (by decide) (by decide) (by decide) rfl

theorem ldSTVx (x : Reg) : Statement (.ldSTVx x) := fun _ =>
  formatRS_id x (by decide) (by decide) (by decide) rfl

theorem addI (x : Reg) : Statement (.addI x) := fun _ =>
  formatRS_id x (by decide) (by decide) (by decide) rfl

theorem ldF (x : Reg) : Statement (.ldF x) := fun _ =>
  formatRS_id x (by decide) (by decide) (by decide) rfl

theorem ldB (x : Reg) : Statement (.ldB x) := fun _ =>
  formatRS_id x (by decide) (by decide) (by decide) rfl

theorem storeRegs (x : Reg) : Statement (.storeRegs x) := fun _ =>
  formatRS_id x (by decide) (by decide) (by decide) rfl

theorem loadRegs (x : Reg) : Statement (.loadRegs x) := fun _ =>
  formatRS_id x (by decide) (by decide) (by decide) rfl

end Sys2Proof.Laws.LooksUpOwnRow
end

