-- ==== Sys2Proof/Tests/Slice0.lean ====
section
/-! SUPPORT. The model's own tests. Expected values come from the spec: the decode and step tests from the vectors of
95_test_vectors.md (each test names its vector), the words from the formats of 30_encoding.md R72 and R77. Then, for every
statement with hypotheses, a witness that meets them, at the boundary values of each clause. -/

namespace Sys2Proof.Tests

open Sys2Proof Sys2Proof.Machine

/-! ## Helpers -/

/-- The state after reset with some registers set. -/
def withRegs (l : List (Reg × Byte)) : State := l.foldl (fun s p => s.setV p.1 p.2) State.reset

/-- The state with some bytes of memory, from `a` on. -/
def withBytes (s : State) (a : Nat) (bytes : List Byte) : State :=
  { s with mem := Memory.writeList s.cfg s.mem a bytes }

/-- The state with one byte of the frame buffer set. -/
def withFb (s : State) (j : Fin 256) (b : Byte) : State := { s with fb := s.fb.set j.val b }

/-- What a test reads of the next state, or nothing when there is none. -/
def after {α : Type} (o : Host.Outcome State Fault Refusal) (f : State → α) : Option α :=
  match o with
  | .next t => some (f t)
  | _ => none

/-- Whether the outcome is a refusal with this reason. -/
def isRefused (o : Host.Outcome State Fault Refusal) (r : Refusal) : Bool :=
  match o with
  | .refused r' => r' == r
  | _ => false

/-! ## WellFormed: an ill-formed term for each check, refused -/

theorem test_wellFormed_refuses_wide_jp : (Instr.jp 4096).wellFormed = false := by decide
theorem test_wellFormed_refuses_wide_call : (Instr.call 4096).wellFormed = false := by decide
theorem test_wellFormed_refuses_wide_ldI : (Instr.ldI 4096).wellFormed = false := by decide
theorem test_wellFormed_refuses_wide_jpV0 : (Instr.jpV0 4096).wellFormed = false := by decide
theorem test_wellFormed_refuses_sixteen_rows : (Instr.drw 0 0 16).wellFormed = false := by decide

/-! ## Decoding: every constructor, by a word written out bit by bit (R72, R77) -/

theorem test_decode_formatZ_and_formatA :
    decodeTableWord 16 0b0000000011100000 = some .cls ∧ decodeTableWord 16 0b0000000011101110 = some .ret ∧
    decodeTableWord 16 0b0001101010111100 = some (.jp 0xABC) ∧
    decodeTableWord 16 0b0010111111111111 = some (.call 0xFFF) ∧
    decodeTableWord 16 0b1010000100100011 = some (.ldI 0x123) ∧
    decodeTableWord 16 0b1011111111111111 = some (.jpV0 0xFFF) := by decide

theorem test_decode_formatRB :
    decodeTableWord 16 0b0011101001111111 = some (.seByte 10 0x7F) ∧
    decodeTableWord 16 0b0100000000000000 = some (.sneByte 0 0x00) ∧
    decodeTableWord 16 0b0110111100000000 = some (.ldByte 15 0x00) ∧
    decodeTableWord 16 0b0111000100000011 = some (.addByte 1 0x03) ∧
    decodeTableWord 16 0b1100001111111111 = some (.rnd 3 0xFF) := by decide

theorem test_decode_formatRRT_skips_and_formatRRN :
    decodeTableWord 16 0b0101101010110000 = some (.seReg 10 11) ∧
    decodeTableWord 16 0b1001101010110000 = some (.sneReg 10 11) ∧
    decodeTableWord 16 0b1101000100101111 = some (.drw 1 2 15) ∧
    decodeTableWord 16 0b1101000100100000 = some (.drw 1 2 0) := by decide

theorem test_decode_formatRRT_alu :
    decodeTableWord 16 0b1000101010110000 = some (.ldReg 10 11) ∧
    decodeTableWord 16 0b1000101010110001 = some (.orReg 10 11) ∧
    decodeTableWord 16 0b1000101010110010 = some (.andReg 10 11) ∧
    decodeTableWord 16 0b1000101010110011 = some (.xorReg 10 11) ∧
    decodeTableWord 16 0b1000101010110100 = some (.addReg 10 11) ∧
    decodeTableWord 16 0b1000101010110101 = some (.subReg 10 11) ∧
    decodeTableWord 16 0b1000101010110110 = some (.shr 10 11) ∧
    decodeTableWord 16 0b1000101010110111 = some (.subnReg 10 11) ∧
    decodeTableWord 16 0b1000000000001110 = some (.shl 0 0) := by decide

theorem test_decode_formatRS :
    decodeTableWord 16 0b1110001110011110 = some (.skp 3) ∧ decodeTableWord 16 0b1110001110100001 = some (.sknp 3) ∧
    decodeTableWord 16 0b1111001100000111 = some (.ldVxDT 3) ∧ decodeTableWord 16 0b1111001100001010 = some (.ldVxK 3) ∧
    decodeTableWord 16 0b1111001100010101 = some (.ldDTVx 3) ∧ decodeTableWord 16 0b1111001100011000 = some (.ldSTVx 3) ∧
    decodeTableWord 16 0b1111001000011110 = some (.addI 2) ∧ decodeTableWord 16 0b1111000000101001 = some (.ldF 0) ∧
    decodeTableWord 16 0b1111010100110011 = some (.ldB 5) ∧
    decodeTableWord 16 0b1111000101010101 = some (.storeRegs 1) ∧
    decodeTableWord 16 0b1111111101100101 = some (.loadRegs 15) := by decide

/-- The UnknownOpcode words of 95_test_vectors.md 2.2. -/
theorem test_decode_refuses :
    ([0x0000, 0x00E1, 0x01E0, 0x0123, 0x5AB1, 0x8AB8, 0x800F, 0x9AB3, 0xE39F, 0xE307, 0xF3A1, 0xF30B, 0xF100, 0xFFFF].map
      (decodeTableWord 16)).all (· == none) = true := by decide

/-- Both bytes of an instruction are needed, and the bytes after it are left. -/
theorem test_decodeBytes :
    decodeBytes [0x12] = .error .truncated ∧ decodeBytes [0x12, 0x34, 0x56] = .ok (.jp 0x234, [0x56]) := by decide

/-- SHR and SHL spell without Y, as R81 does. -/
theorem test_asm : (Instr.shr 10 11).asm = "SHR VA" ∧ (Instr.drw 1 2 15).asm = "DRW V1,V2,15" := by decide

/-! ## Control transfer -/

/-- V-CT2. -/
theorem test_ret : after (exec .ret { State.reset with sp := 1, stack := State.reset.stack.set 0 0x204 })
    (fun t => (t.sp.val, t.pc, t.stack[0])) = some (0, 0x204, 0x204) := by decide

/-- V-CT3. -/
theorem test_ret_underflow : after (exec .ret { State.reset with pc := 0x302 }) (fun t => (t.run, t.pc, t.sp.val)) =
    some (.halted { kind := .stackUnderflow, pc0 := 0x300, opcode := 0x00EE, addr := 0 }, 0x302, 0) := by decide

/-- V-CT5. -/
theorem test_jp : after (step (State.reset.withFetchWord 16 0x1234)) (fun t => t.pc) = some 0x234 := by decide

/-- V-CT1. -/
theorem test_call : after (exec (.call 0x210) { State.reset with pc := 0x204 })
    (fun t => (t.stack[0], t.sp.val, t.pc)) = some (0x204, 1, 0x210) := by decide

/-- V-CT4. -/
theorem test_call_overflow : after (exec (.call 0x500) { State.reset with pc := 0x402, sp := 16 })
    (fun t => (t.run, t.pc, t.sp.val)) =
    some (.halted { kind := .stackOverflow, pc0 := 0x400, opcode := 0x2500, addr := 0 }, 0x402, 16) := by decide

/-- V-CT6, V-CT7. -/
theorem test_jpV0 : after (exec (.jpV0 0x300) (withRegs [(0, 0x04)])) (fun t => t.pc) = some 0x304 ∧
    after (exec (.jpV0 0xFFF) (withRegs [(0, 0xFF)])) (fun t => t.pc) = some 0x10FE := by decide

/-! ## Skips -/

/-- V-SK1, V-SK2. -/
theorem test_seByte : after (step ((withRegs [(3, 0x42)]).withFetchWord 16 0x3342)) (fun t => t.pc) = some 0x204 ∧
    after (step ((withRegs [(3, 0x41)]).withFetchWord 16 0x3342)) (fun t => t.pc) = some 0x202 := by decide

/-- V-SK3. -/
theorem test_sneByte :
    after (step ((withRegs [(3, 0x42)]).withFetchWord 16 0x4342)) (fun t => t.pc) = some 0x202 := by decide

/-- V-SK4. -/
theorem test_seReg : after (exec (.seReg 1 2) { withRegs [(1, 7), (2, 7)] with pc := 0x212 })
    (fun t => t.pc) = some 0x214 := by decide

/-- The example of R133. -/
theorem test_sneReg : after (exec (.sneReg 1 2) { withRegs [(1, 7), (2, 8)] with pc := 0x212 })
    (fun t => t.pc) = some 0x214 := by decide

/-- V-SK9. -/
theorem test_skp : after (exec (.skp 0) { withRegs [(0, 5)] with pc := 0x222, keys := State.reset.keys.set 5 true })
    (fun t => t.pc) = some 0x224 := by decide

/-- V-SK10. -/
theorem test_sknp : after (exec (.sknp 0) { withRegs [(0, 5)] with pc := 0x222 }) (fun t => t.pc) = some 0x224 := by
  decide

/-! ## Register loads, arithmetic and logic -/

/-- V-AL1. -/
theorem test_ldByte : after (step (State.reset.withFetchWord 16 0x6A2C)) (fun t => t.getV 10) = some 0x2C := by decide

/-- V-AL2. -/
theorem test_addByte : after (exec (.addByte 1 0x03) (withRegs [(1, 0xFE), (15, 0x55)]))
    (fun t => (t.getV 1, t.getV 15)) = some (0x01, 0x55) := by decide

/-- V-AL4. -/
theorem test_ldReg : after (exec (.ldReg 1 2) (withRegs [(2, 0x11)])) (fun t => t.getV 1) = some 0x11 := by decide

/-- V-AL5. -/
theorem test_orReg : after (exec (.orReg 1 2) (withRegs [(1, 0xF0), (2, 0x0F), (15, 0x55)]))
    (fun t => (t.getV 1, t.getV 15)) = some (0xFF, 0x55) := by decide

/-- V-AL6. -/
theorem test_andReg : after (exec (.andReg 1 2) (withRegs [(1, 0xF0), (2, 0x3C)])) (fun t => t.getV 1) = some 0x30 := by
  decide

/-- V-AL7. -/
theorem test_xorReg : after (exec (.xorReg 1 2) (withRegs [(1, 0xF0), (2, 0x3C)])) (fun t => t.getV 1) = some 0xCC := by
  decide

/-- V-AL9 (S4). -/
theorem test_addReg : after (exec (.addReg 1 2) (withRegs [(1, 0xFF), (2, 0x01)]))
    (fun t => (t.getV 1, t.getV 15)) = some (0x00, 1) := by decide

/-- V-AL12: with X = F the result remains. -/
theorem test_addReg_into_vF : after (exec (.addReg 15 15) (withRegs [(15, 0x80)])) (fun t => t.getV 15) = some 0x00 := by
  decide

/-- V-AL13 (S5). -/
theorem test_subReg : after (exec (.subReg 1 2) (withRegs [(1, 0x05), (2, 0x0A)]))
    (fun t => (t.getV 1, t.getV 15)) = some (0xFB, 0) := by decide

/-- V-AL15: VF as the source is the value before. -/
theorem test_subReg_from_vF : after (exec (.subReg 1 15) (withRegs [(1, 0x05), (15, 0x03)]))
    (fun t => (t.getV 1, t.getV 15)) = some (0x02, 1) := by decide

/-- V-AL17. -/
theorem test_shr : after (exec (.shr 4 7) (withRegs [(4, 0x01), (7, 0xAA)]))
    (fun t => (t.getV 4, t.getV 15, t.getV 7)) = some (0x00, 1, 0xAA) := by decide

/-- V-AL19, V-AL20. -/
theorem test_subnReg : after (exec (.subnReg 1 2) (withRegs [(1, 0x0A), (2, 0x05)]))
    (fun t => (t.getV 1, t.getV 15)) = some (0xFB, 0) ∧
    after (exec (.subnReg 1 2) (withRegs [(1, 0x05), (2, 0x0A)]))
      (fun t => (t.getV 1, t.getV 15)) = some (0x05, 1) := by decide

/-- V-AL21. -/
theorem test_shl : after (exec (.shl 4 0) (withRegs [(4, 0x81)])) (fun t => (t.getV 4, t.getV 15)) = some (0x02, 1) := by
  decide

/-- V-AL25: the mask 0 leaves nothing of any draw. -/
theorem test_rnd_masked : after (exec (.rnd 3 0x00) (withRegs [(3, 0x77)])) (fun t => (t.getV 3, t.draws)) =
    some (0x00, 1) := by
  show some (Config.rnd 0 &&& 0, 1) = some (0, 1)
  simp

/-! ## The index register and memory -/

/-- V-IM1. -/
theorem test_ldI : after (step (State.reset.withFetchWord 16 0xA2F0)) (fun t => t.i) = some 0x2F0 := by decide

/-- V-IM3. -/
theorem test_addI : after (exec (.addI 0) { withRegs [(0, 0xFF)] with i := 0xF00 }) (fun t => t.i) = some 0xFFF := by
  decide

/-- V-IM4. -/
theorem test_addI_fault : after (exec (.addI 0) { withRegs [(0, 0x01)] with i := 0xFFF, pc := 0x206 })
    (fun t => (t.run, t.i, t.pc)) =
    some (.halted { kind := .memoryFault, pc0 := 0x204, opcode := 0xF01E, addr := 0x1000 }, 0xFFF, 0x206) := by decide

/-- V-IM5, V-IM7. -/
theorem test_ldF : after (exec (.ldF 0) (withRegs [(0, 0x0A)])) (fun t => t.i) = some 0x032 ∧
    after (exec (.ldF 0) (withRegs [(0, 0xFF)])) (fun t => t.i) = some 0x4FB := by decide

/-- V-IM11. -/
theorem test_ldB : after (exec (.ldB 5) { withRegs [(5, 157)] with i := 0xFFD })
    (fun t => (t.readByte 0xFFD, t.readByte 0xFFE, t.readByte 0xFFF)) = some (1, 5, 7) := by decide

/-- V-IM13, V-IM14: a store into the font, under each policy. -/
theorem test_ldB_into_font : after (exec (.ldB 0) (withRegs [(0, 157)])) (fun t => (t.readByte 0, t.readByte 1)) =
      some (0xF0, 0x90) ∧
    after (exec (.ldB 0) { withRegs [(0, 157)] with cfg := { defaultConfig with fontStorePolicy := .write } })
      (fun t => (t.readByte 0, t.readByte 1)) = some (1, 5) := by decide

/-- V-IM15. -/
theorem test_storeRegs : after (exec (.storeRegs 1) { withRegs [(0, 1), (1, 2)] with i := 0x300 })
    (fun t => (t.readByte 0x300, t.readByte 0x301, t.readByte 0x302, t.i)) = some (1, 2, 0, 0x300) := by decide

/-- V-IM17. -/
theorem test_storeRegs_fault : after (exec (.storeRegs 15) { withRegs [(0, 1)] with i := 0xFF1, pc := 0x202 })
    (fun t => (t.run, t.readByte 0xFF1)) =
    some (.halted { kind := .memoryFault, pc0 := 0x200, opcode := 0xFF55, addr := 0x1000 }, 0) := by decide

/-- V-IM18: glyph "0". -/
theorem test_loadRegs : after (exec (.loadRegs 4) (withRegs [(5, 0x55)]))
    (fun t => (t.getV 0, t.getV 1, t.getV 4, t.getV 5, t.i)) = some (0xF0, 0x90, 0xF0, 0x55, 0) := by decide

/-- V-IM20. -/
theorem test_loadRegs_fault : after (exec (.loadRegs 15) { withRegs [(0, 1)] with i := 0xFF1, pc := 0x202 })
    (fun t => (t.run, t.getV 0)) =
    some (.halted { kind := .memoryFault, pc0 := 0x200, opcode := 0xFF65, addr := 0x1000 }, 1) := by decide

/-! ## Timers and keys -/

/-- V-TK1, its second half. -/
theorem test_ldVxDT : after (exec (.ldVxDT 4) { State.reset with dt := 0x3C }) (fun t => t.getV 4) = some 0x3C := by
  decide

/-- V-TK1. -/
theorem test_ldDTVx : after (exec (.ldDTVx 3) (withRegs [(3, 0x3C)])) (fun t => (t.dt, t.st)) = some (0x3C, 0) := by
  decide

/-- V-TK5. -/
theorem test_ldSTVx : after (exec (.ldSTVx 3) (withRegs [(3, 2)])) (fun t => (t.st, t.dt, t.soundOn)) =
    some (2, 0, true) := by decide

/-- V-TK7. -/
theorem test_ldVxK : after (step (State.reset.withFetchWord 16 0xFF0A)) (fun t => (t.run, t.pc, t.events)) =
    some (.waitingForKey 15, 0x202, [.awaitingKey 15]) := by decide

/-- V-TK7, the delivery; V-TK9, the refusal. -/
theorem test_deliverKey : after (transact (.deliverKey 9) { State.reset with run := .waitingForKey 15 })
      (fun t => (t.getV 15, t.run)) = some (9, .running) ∧
    isRefused (transact (.deliverKey 16) { State.reset with run := .waitingForKey 2 }) (.keyCodeOutOfRange 16) = true := by
  decide

/-- V-TK3. -/
theorem test_tick : after (transact .tick { State.reset with dt := 1 }) (fun t => (t.dt, t.st)) = some (0, 0) := by decide

/-! ## The frame buffer -/

/-- V-FB17, one byte. -/
theorem test_cls : after (exec .cls (withFb State.reset 7 0xFF)) (fun t => (t.fb[7], t.events)) = some (0, [.drew]) := by
  decide +kernel

/-- V-FB3 (S8), V-FB5: a row across the right edge, and from the last byte to the first. -/
theorem test_drw_wraps : after (exec (.drw 0 1 1) { withBytes (withRegs [(0, 60)]) 0x300 [0xFF] with i := 0x300 })
      (fun t => (t.fb[7], t.fb[8], t.getV 15)) = some (0x0F, 0xF0, 0) ∧
    after (exec (.drw 0 1 1) { withBytes (withRegs [(0, 63), (1, 31)]) 0x300 [0xFF] with i := 0x300 })
      (fun t => (t.fb[255], t.fb[0], t.getV 15)) = some (0x01, 0xFE, 0) := by decide +kernel

/-- V-FB7, V-FB8: a collision, and pixels only turned on. -/
theorem test_drw_collides :
    after (exec (.drw 0 0 1) { withBytes (withFb State.reset 0 0x0F) 0x300 [0xFF] with i := 0x300 })
      (fun t => (t.fb[0], t.getV 15)) = some (0xF0, 1) ∧
    after (exec (.drw 0 0 1) { withBytes (withFb State.reset 0 0x0F) 0x300 [0xF0] with i := 0x300 })
      (fun t => (t.fb[0], t.getV 15)) = some (0xFF, 0) := by decide +kernel

/-! ## The cycle, reset and load -/

/-- V-MC3: the fetch fault. -/
theorem test_fetch_fault : after (step { State.reset with pc := 0xFFF }) (fun t => (t.run, t.pc)) =
    some (.halted { kind := .memoryFault, pc0 := 0xFFF, opcode := 0, addr := 0x1000 }, 0xFFF) := by decide

/-- V-RS2: nothing loaded. -/
theorem test_nothing_loaded : after (step State.reset) (fun t => (t.run, t.pc)) =
    some (.halted { kind := .unknownOpcode, pc0 := 0x200, opcode := 0x0000, addr := 0 }, 0x202) := by decide

/-- V-RS3: the boot sequence of R234, then one cycle. -/
theorem test_boot : after (core.run 3 { State.reset with schedule := [.load [0x60, 0x01], .reset] })
    (fun (t : State) => (t.getV 0, t.pc)) = some (0x01, 0x202) := by decide +kernel

/-- V-TK10: reset during a wait. -/
theorem test_reset_in_a_wait :
    after (transact .reset { withRegs [(2, 0x77)] with run := .waitingForKey 2, pc := 0x300 })
      (fun t => (t.run, t.getV 2, t.pc)) = some (.running, 0, 0x200) := by decide

/-! ## Witnesses: states and operands that meet the hypotheses of the statements -/

theorem witness_DecodeOfEncode : (Instr.jp 0xFFF).wellFormed = true ∧ (Instr.drw 15 15 15).wellFormed = true ∧
    (Instr.drw 0 0 0).wellFormed = true := by decide

theorem witness_EncodeOfDecode : decode 0x8AB6 = .ok (.shr 10 11) := by decide

theorem witness_ExactlyTheLegalWordsDecode : LegalWord 0x8AB7 ∧ LegalWord 0x8ABE ∧ LegalWord 0xFF65 ∧
    ¬ LegalWord 0x8AB8 ∧ ¬ LegalWord 0x0000 := by
  refine ⟨?_, ?_, ?_, ?_, ?_⟩
  · show (_ ≤ 7 ∨ _ : Prop); decide
  · show (_ ≤ 7 ∨ _ : Prop); decide
  · show (_ ∈ _ : Prop); decide
  · show ¬ (_ ≤ 7 ∨ _ : Prop); decide
  · show ¬ (_ = _ ∨ _ : Prop); decide

theorem witness_StepRunsTheDecodedInstruction :
    let s := { State.reset with pc := 0xFFE }.withFetchWord 16 0x1FFF
    s.run = .running ∧ s.nextTransaction = .cycle ∧ s.pc.toNat + 1 ≤ 0xFFF ∧
      decodeBytes [s.readByte s.pc.toNat, s.readByte (s.pc.toNat + 1)] = .ok (.jp 0xFFF, []) := by decide

theorem witness_StepHaltsOnUnknownOpcode :
    let s := State.reset.withFetchWord 16 0x0123
    s.run = .running ∧ s.nextTransaction = .cycle ∧ s.pc.toNat + 1 ≤ 0xFFF ∧
      (0x0123 : Word).toNat = (s.readByte s.pc.toNat).toNat * 256 + (s.readByte (s.pc.toNat + 1)).toNat ∧
      ¬ LegalWord 0x0123 :=
  ⟨by decide, by decide, by decide, by decide, by show ¬ (_ = _ ∨ _ : Prop); decide⟩

theorem witness_StepFaultsOutsideMemory :
    (let s := { State.reset with pc := 0xFFF }
     s.run = .running ∧ s.nextTransaction = .cycle ∧ 0xFFF ≤ s.pc.toNat) ∧
    (let s := { State.reset with pc := 0x10FE }
     s.run = .running ∧ s.nextTransaction = .cycle ∧ 0xFFF ≤ s.pc.toNat) :=
  ⟨⟨rfl, rfl, by decide⟩, rfl, rfl, by decide⟩

theorem witness_FetchIsBigEndian : ({ State.reset with pc := 0xFFE }).pc.toNat + 1 ≤ 0xFFF := by decide

/-- A halted state and a waiting one. -/
def haltedState : State :=
  { State.reset with run := .halted { kind := .stackUnderflow, pc0 := 0x200, opcode := 0x00EE, addr := 0 }, pc := 0x202 }

def waitingState : State := { State.reset with run := .waitingForKey 5, pc := 0x202 }

theorem witness_CycleIdlesOutsideRunning : haltedState.run ≠ .running ∧ waitingState.run ≠ .running := by decide

/-- The rows of R106 under a cycle in Running: LD Vx,K, each way of halting, and neither. -/
theorem witness_RunStateChangesAsTabled_cycle :
    (∃ t, step (State.reset.withFetchWord 16 0xF50A) = .next t ∧ t.run = .waitingForKey 5) ∧
    Fetches (State.reset.withFetchWord 16 0xF50A) (.ldVxK 5) ∧
    CycleRaises { State.reset with pc := 0xFFF } .memoryFault ∧
    CycleRaises (State.reset.withFetchWord 16 0x00EE) .stackUnderflow ∧
    CycleRaises ({ State.reset with sp := 16 }.withFetchWord 16 0x2200) .stackOverflow ∧
    CycleRaises ({ State.reset with i := 0xFFE }.withFetchWord 16 0xF033) .memoryFault ∧
    (∃ t, step (State.reset.withFetchWord 16 0x6A2C) = .next t ∧ t.run = .running) :=
  ⟨⟨_, rfl, rfl⟩, ⟨by decide, by decide⟩, .inl ⟨by decide, rfl⟩, .inr (.inr ⟨.ret, ⟨by decide, by decide⟩, by decide⟩),
    .inr (.inr ⟨.call 0x200, ⟨by decide, by decide⟩, by decide⟩),
    .inr (.inr ⟨.ldB 0, ⟨by decide, by decide⟩, by decide⟩), _, rfl, rfl⟩

/-- The clause for UnknownOpcode: zeroed memory. -/
theorem witness_RunStateChangesAsTabled_unknown : CycleRaises State.reset .unknownOpcode := by
  refine .inr (.inl ⟨by decide, fun i h => ?_, rfl⟩)
  have hd : decodeBytes [State.reset.readByte 0x200, State.reset.readByte 0x201] = .error (.unknownOpcode 0) := by decide
  exact absurd (hd.symm.trans h.2) (by simp)

/-- The other rows of R106: each transaction in the states it has a row for. -/
theorem witness_RunStateChangesAsTabled_others :
    (({ waitingState with schedule := [.deliverKey 15] }).nextTransaction = .deliverKey 15 ∧
      after (step { waitingState with schedule := [.deliverKey 15] }) (fun t => (t.run, t.getV 5)) = some (.running, 15)) ∧
    after (step waitingState) (fun t => t.run) = some waitingState.run ∧
    after (step haltedState) (fun t => t.run) = some haltedState.run ∧
    after (step { haltedState with schedule := [.deliverKey 0] }) (fun t => t.run) = some haltedState.run ∧
    after (step { waitingState with schedule := [.tick] }) (fun t => t.run) = some waitingState.run ∧
    after (step { haltedState with schedule := [.reset] }) (fun t => t.run) = some .running ∧
    after (step { waitingState with schedule := [.load [0x60]] }) (fun t => t.run) = some waitingState.run := by decide

theorem witness_OnlyKeyWaitSuspends :
    ∃ t, State.reset.run = .running ∧ exec (.ldVxK 5) State.reset = .next t ∧ t.run = .waitingForKey 5 :=
  ⟨_, rfl, rfl, rfl⟩

theorem witness_ErrorsArePrecise :
    ∃ t err, State.reset.run = .running ∧ exec .ret State.reset = .next t ∧ t.run = .halted err :=
  ⟨_, _, rfl, rfl, rfl⟩

theorem witness_OnlyResetLeavesHalted :
    let s := { haltedState with dt := 5, schedule := [.tick] }
    s.run = .halted { kind := .stackUnderflow, pc0 := 0x200, opcode := 0x00EE, addr := 0 } ∧
      s.nextTransaction ≠ .reset ∧ ∃ t, step s = .next t :=
  ⟨rfl, by decide, _, rfl⟩

/-- The clauses for what is neither a tick nor a load. -/
theorem witness_OnlyResetLeavesHalted_cycle :
    haltedState.nextTransaction ≠ .reset ∧ haltedState.nextTransaction ≠ .tick ∧
      (∀ image, haltedState.nextTransaction ≠ .load image) ∧ ∃ t, step haltedState = .next t :=
  ⟨by decide, by decide, fun _ h => (by cases h), _, rfl⟩

theorem witness_InstructionsWriteOnlyWhatTheirRulesList : ∃ t, exec (.addReg 1 2) State.reset = .next t := ⟨_, rfl⟩

/-- Both clauses: one instruction halts, one does not. -/
theorem witness_InstructionsEmitTheirEvents :
    (∃ t err, State.reset.run = .running ∧ exec .ret State.reset = .next t ∧ t.run = .halted err) ∧
    ∃ t, exec .cls State.reset = .next t ∧ ∀ err, t.run ≠ .halted err :=
  ⟨⟨_, _, rfl, rfl, rfl⟩, _, rfl, fun err h => by cases h⟩

theorem witness_RetPopsTheReturnAddress :
    0 < ({ State.reset with sp := 1 }).sp.val ∧ 0 < ({ State.reset with sp := 16 }).sp.val := by decide

theorem witness_RetUnderflowsAtZero : State.reset.sp = 0 := rfl

theorem witness_JumpsSetPC_and_IndexLoads : (0xFFF : Nat) ≤ 0xFFF := Nat.le_refl _

theorem witness_CallPushesTheReturnAddress :
    (0xFFF : Nat) ≤ 0xFFF ∧ State.reset.sp.val < 16 ∧ ({ State.reset with sp := 15 }).sp.val < 16 := by decide

theorem witness_CallOverflowsAtSixteen :
    ({ State.reset with sp := 16 }).run = .running ∧ ({ State.reset with sp := 16 }).sp = 16 ∧
    ({ State.reset with sp := 15 }).run = .running ∧ ({ State.reset with sp := 15 }).sp ≠ 16 := by decide

/-- V-CT9. -/
theorem witness_CallThenRetReturns :
    let s := { withBytes (withBytes State.reset 0x200 [0x23, 0x00]) 0x300 [0x00, 0xEE] with sp := 5 }
    s.run = .running ∧ s.schedule = [] ∧ s.pc.toNat + 1 ≤ 0xFFF ∧ 0x300 + 1 ≤ 0xFFF ∧ s.sp.val < 16 ∧
      decodeBytes [s.readByte s.pc.toNat, s.readByte (s.pc.toNat + 1)] = .ok (.call 0x300, []) ∧
      s.readByte 0x300 = 0x00 ∧ s.readByte (0x300 + 1) = 0xEE := by decide

/-- The trailing nibbles that SE Vx,Vy and SNE Vx,Vy do not have. -/
theorem witness_SkipsOnRegister : (0 < 1 ∧ 1 < 16) ∧ (0 < 15 ∧ 15 < 16) := by decide

theorem witness_SkipsOnKey :
    ((withRegs [(0, 15)]).getV 0).toNat < 16 ∧ 16 ≤ ((withRegs [(0, 16)]).getV 0).toNat := by decide

/-- The flag clauses of ADD, SUB, SUBN, SHR and SHL. -/
theorem witness_flags_beside_vF : (14 : Reg) ≠ vF := by decide

theorem witness_AddIAdvancesTheIndex :
    let s := { withRegs [(0, 0xFF)] with i := 0xF00 }
    s.i.toNat + (s.getV 0).toNat ≤ 0xFFF := by decide

theorem witness_AddIFaultsPastMemory :
    let s := { withRegs [(0, 0x01)] with i := 0xFFF }
    0xFFF < s.i.toNat + (s.getV 0).toNat := by decide

/-- An address that exists and one that does not, a font byte under `discard` and one past the font. -/
theorem witness_ByteAccessesCheckTheirAddress : 0x1000 > 0xFFF ∧ 0xFFF ≤ 0xFFF ∧
    (0x04F ≤ 0x04F ∧ State.reset.cfg.fontStorePolicy = .discard) ∧ ¬ 0x050 ≤ 0x04F := by decide

theorem witness_LdBStoresTheDigits :
    ({ State.reset with i := 0xFFD }).i.toNat + 2 ≤ 0xFFF ∧ State.reset.storeDiscarded 0x050 = false ∧
    State.reset.storeDiscarded 0x04F = true := by decide

theorem witness_transfers_within_memory :
    ({ State.reset with i := 0xFF0 }).i.toNat + (15 : Reg).val ≤ 0xFFF ∧
    ({ State.reset with i := 0xFFF }).i.toNat + (0 : Reg).val ≤ 0xFFF ∧
    State.reset.storeDiscarded (0xFF0 + 15) = false := by decide

theorem witness_TransfersFaultAsAWhole :
    0xFFF < ({ State.reset with i := 0xFFE }).i.toNat + 2 ∧
    0xFFF < ({ State.reset with i := 0xFF1 }).i.toNat + (15 : Reg).val ∧
    (0 < 1 ∧ 0xFFF < ({ State.reset with i := 0x1000 }).i.toNat + 1 - 1) ∧
    (0 < 15 ∧ 0xFFF < ({ State.reset with i := 0xFF2 }).i.toNat + 15 - 1) := by decide

/-- V-IM21. -/
theorem witness_StoresAreSeenByTheNextFetch :
    let s := { withRegs [(0, 0x12), (1, 0x08)] with i := 0x208, pc := 0x208 }
    s.i.toNat + (1 : Reg).val ≤ 0xFFF ∧ s.pc.toNat = s.i.toNat + (0 : Reg).val ∧ 0x050 ≤ s.pc.toNat ∧
      (0 : Reg).val + 1 ≤ (1 : Reg).val ∧ ∃ t, exec (.storeRegs 1) s = .next t :=
  ⟨by decide, by decide, by decide, by decide, _, rfl⟩

theorem witness_DeliverKeyResolvesAWait : (15 < 16 ∧ waitingState.run = .waitingForKey 5) ∧
    (∀ x, State.reset.run ≠ .waitingForKey x) ∧ (∀ x, haltedState.run ≠ .waitingForKey x) ∧ 15 < 16 := by decide

theorem witness_DrwXorsTheSpriteOntoPixels :
    (0 ≤ 15 ∧ ((0 : Nat) = 0 ∨ ({ State.reset with i := 0x1000 }).i.toNat + 0 - 1 ≤ 0xFFF)) ∧
    (15 ≤ 15 ∧ ((15 : Nat) = 0 ∨ ({ State.reset with i := 0xFF1 }).i.toNat + 15 - 1 ≤ 0xFFF)) ∧
    (1 ≤ 15 ∧ ((1 : Nat) = 0 ∨ ({ State.reset with i := 0xFFF }).i.toNat + 1 - 1 ≤ 0xFFF)) := by decide

/-- The two clauses on VF: a draw that turns a pixel off, and one that turns none off. -/
theorem witness_collision_clauses :
    after (exec (.drw 0 0 1) { withBytes (withFb State.reset 0 0x0F) 0x300 [0xFF] with i := 0x300 })
      (fun t => framePixel t.fb 4) = some false ∧ framePixel (withFb State.reset 0 0x0F).fb 4 = true ∧
    after (exec (.drw 0 0 0) (withFb State.reset 0 0x0F)) (fun t => t.fb[0]) = some 0x0F := by decide +kernel

theorem witness_DrawTwiceRestoresTheFrame : (List.replicate 15 (0xFF : Byte)).length ≤ 15 := by decide

theorem witness_SpriteRowsSplitAtTheByte : 8 % 8 = 0 := by decide

theorem witness_SpritePartsLandApart : 0 ≤ 14 ∧ 14 ≤ 14 ∧ (0 : Nat) ≠ 14 := by decide

theorem witness_ResetLeavesTheResetValues : ∃ t, transact .reset haltedState = .next t ∧ 79 < fontSize :=
  ⟨_, rfl, by decide⟩

/-- The bounds between the regions of memory, with an image of one byte. -/
theorem witness_ResetRebuildsMemoryFromTheImage :
    79 < fontSize ∧ fontSize ≤ 80 ∧ 0x1FF < 0x200 ∧ 0 < ({ State.reset with image := [0x60] }).image.length ∧
    0x200 + ({ State.reset with image := [0x60] }).image.length ≤ 0x201 := by decide

theorem witness_LoadWritesTheImage : (List.replicate 3584 (0 : Byte)).length ≤ 3584 ∧
    3584 < (List.replicate 3585 (0 : Byte)).length ∧ ([0x60, 0x01] : List Byte).length ≤ 3584 := by
  rw [List.length_replicate, List.length_replicate]
  decide

/-- A state other than the reset state that meets the invariant, and that steps. -/
theorem witness_EveryStepKeepsTheInvariant :
    let s := { State.reset with pc := 0x10FE, i := 0xFFF }
    Inv s ∧ ∃ t, step s = .next t := by
  refine ⟨⟨⟨List.Pairwise.nil, fun _ h => by cases h⟩, fun _ a h => ?_, by decide, by decide, by decide, by decide,
    fun err h => by cases h⟩, _, rfl⟩
  show resetByte defaultConfig a = defaultConfig.font[a]
  simp [resetByte, h]

/-- Each way a run ends. -/
theorem witness_EndedRunsStayPut :
    RunEnded haltedState ∧ RunEnded waitingState ∧ RunEnded (State.reset.withFetchWord 16 0x1200) :=
  ⟨.inl ⟨_, rfl⟩, .inr (.inl ⟨5, rfl, fun k h => by cases h⟩), .inr (.inr ⟨rfl, 0x1200, by decide, by decide⟩)⟩

end Sys2Proof.Tests
end

section
/-! Accesses to one byte (20_memory.md R52, R53, R56): the reads and stores of a run of bytes, for a run of length 1. -/

namespace Sys2Proof.Machine

/-- The font policy in the addresses of R53: a store lands except on a font byte under `discard`. -/
theorem State.storeDiscarded_eq_false_iff {s : State} {a : Nat} :
    s.storeDiscarded a = false ↔ ¬ (a ≤ 0x04F ∧ s.cfg.fontStorePolicy = .discard) := by
  simp [State.storeDiscarded, fontSize, Nat.lt_succ_iff]

theorem State.memRead_one (s : State) (a : Nat) :
    s.memRead a 1 = if a > 0xFFF then .error a else .ok [s.readByte a] := by
  split
  next h =>
    have hmax : max a memSize = a := max_eq_left h
    rw [State.memRead_error Nat.one_pos (Nat.lt_succ_of_le h), hmax]
  next h =>
    have hfit : a + 1 ≤ memSize := Nat.succ_le_succ (Nat.le_of_not_lt h)
    rw [State.memRead_ok (.inr hfit)]
    rfl

theorem State.memWrite_singleton_error {s : State} {a : Nat} (v : Byte) (h : a > 0xFFF) :
    s.memWrite a [v] = .error a := by
  have hmax : max a memSize = a := max_eq_left h
  rw [State.memWrite_error (bytes := [v]) Nat.one_pos (Nat.lt_succ_of_le h), hmax]

theorem State.memWrite_singleton_ok {s : State} {a : Nat} (v : Byte) (h : a ≤ 0xFFF) :
    s.memWrite a [v] = .ok (s.writeByte a v) :=
  State.memWrite_ok (Nat.succ_le_succ h)

theorem onlyChanges_writeByte (s : State) (a : Nat) (v : Byte) : OnlyChanges [] [.mem] s (s.writeByte a v) :=
  onlyChanges_writeBytes s a [v]

/-- A read after the store of one byte, with the font policy spelled out (R53). -/
theorem State.readByte_writeByte_of_policy (s : State) (a k : Nat) (v : Byte) :
    (s.writeByte a v).readByte k =
      if k = a ∧ ¬ (a ≤ 0x04F ∧ s.cfg.fontStorePolicy = .discard) then v else s.readByte k := by
  rw [State.readByte_writeByte]
  refine if_congr (and_congr_right fun hk => ?_) rfl rfl
  rw [hk, State.storeDiscarded_eq_false_iff]

/-- Settles O38, from the range check at length 1 and the store of one byte. -/
theorem byteAccessesCheckTheirAddress : Obligations.ByteAccessesCheckTheirAddress := by
  intro s a v
  exact ⟨s.memRead_one a, State.memWrite_singleton_error v, fun ha =>
    ⟨s.writeByte a v, State.memWrite_singleton_ok v ha, onlyChanges_writeByte s a v,
      fun k => s.readByte_writeByte_of_policy a k v⟩⟩

end Sys2Proof.Machine
end

section
/-! The decode table (30_encoding.md R75 to R77): what a word decodes to, by whether its masked value is in the table. -/

namespace Sys2Proof

/-- Every Id# of R77 below UnknownOpcode stands for an instruction, and it is that instruction's own. -/
theorem Fields.exists_instr_of_lt (f : Fields) {id : Nat} (h : id < unknownId) :
    ∃ i, f.instr id = some i ∧ i.id = id := by
  interval_cases id <;> exact ⟨_, rfl, rfl⟩

theorem decodeTable_id_lt : ∀ row ∈ decodeTable, row.2 < unknownId := by decide

theorem mem_decodeTable_of_lookup {w : Word} {id : Nat} (h : decodeTable.lookup w = some id) : (w, id) ∈ decodeTable := by
  obtain ⟨before, after, htable, -⟩ := List.lookup_eq_some_iff.mp h
  exact htable ▸ List.mem_append_cons_self

/-- A hit in the table: the word decodes to an instruction of the row's Id# (R75). -/
theorem decode_of_lookup_eq_some {op : Word} {id : Nat} (h : decodeTable.lookup (op &&& maskOf op) = some id) :
    ∃ i, decode op = .ok i ∧ i.id = id := by
  have hid : instructionId op = id := by rw [instructionId, h, Option.getD_some]
  have hlt : id < unknownId := decodeTable_id_lt _ (mem_decodeTable_of_lookup h)
  obtain ⟨i, hi, hi_id⟩ := (fieldsOf op).exists_instr_of_lt hlt
  exact ⟨i, by rw [decode, hid, hi], hi_id⟩

/-- A miss in the table: the word is rejected as UnknownOpcode (R75). -/
theorem decode_of_lookup_eq_none {op : Word} (h : decodeTable.lookup (op &&& maskOf op) = none) :
    decode op = .error (.unknownOpcode op) := by
  have hid : instructionId op = unknownId := by rw [instructionId, h, Option.getD_none]
  rw [decode, hid]
  rfl

/-- Settles O5: the finite facts by evaluation of the table, the rest by whether the lookup of the masked word hits. -/
theorem tableRowsAreDistinct : Obligations.TableRowsAreDistinct := by
  refine ⟨by decide, by decide, by decide, fun op => ?_⟩
  cases hlookup : decodeTable.lookup (op &&& maskOf op) with
  | none =>
    refine .inr ⟨fun row hrow heq => ?_, decode_of_lookup_eq_none hlookup⟩
    exact bne_iff_ne.mp (List.lookup_eq_none_iff.mp hlookup row hrow) heq.symm
  | some id => exact .inl ⟨_, mem_decodeTable_of_lookup hlookup, rfl, decode_of_lookup_eq_some hlookup⟩

end Sys2Proof
end

section
/-! The timers (45_timers_keys.md R176): a count-down as a number, and `tick()` as a transaction. -/

namespace Sys2Proof.Machine

/-- The floor at 0 (R176) is that of subtraction on the naturals. -/
@[simp] theorem toNat_countDown (b : Byte) : (countDown b).toNat = b.toNat - 1 := by
  unfold countDown
  split
  next hzero =>
    subst hzero
    rfl
  next hpos =>
    have hle : (1 : Byte) ≤ b := by bv_omega
    exact BitVec.toNat_sub_of_le hle

@[simp] theorem transact_tick (s : State) : transact .tick s = .next s.tick := rfl

/-- Settles O47, from what a count-down is as a number and the frame of `tick()`. -/
theorem tickCountsBothTimersDown : Obligations.TickCountsBothTimersDown := by
  intro s
  exact ⟨s.tick, transact_tick s, toNat_countDown s.dt, toNat_countDown s.st, onlyChanges_tick s⟩

end Sys2Proof.Machine
end

section
/-! The frame buffer (46_framebuffer.md R191 to R193): what a clear leaves, the parts of a sprite row as numbers, and the
byte and the pixel on which each lands. -/

namespace Sys2Proof.Machine

/-! ## The clear -/

/-- `clear()` leaves 0 in every byte (R191). -/
@[simp] theorem clearedFrame_get (j : Fin 256) : clearedFrame[j.val] = 0 := Vector.getElem_replicate j.isLt

@[simp] theorem framePixel_clearedFrame (p : Nat) : framePixel clearedFrame p = false := by
  rw [framePixel, clearedFrame_get, BitVec.ofNat_eq_ofNat, BitVec.getLsbD_zero]

theorem exec_cls (s : State) : exec .cls s = .next ((s.setFb clearedFrame).emit .drew) := rfl

/-- Settles O48, from what the cleared buffer holds and the frames of the two updates of CLS. -/
theorem clsClearsEveryPixel : Obligations.ClsClearsEveryPixel := by
  intro s
  exact ⟨(s.setFb clearedFrame).emit .drew, exec_cls s, clearedFrame_get, fun c w => framePixel_clearedFrame (w * 64 + c),
    (onlyChanges_setFb s clearedFrame).trans (onlyChanges_emit _ .drew)⟩

/-! ## The two parts of a sprite row -/

theorem toNat_highPart (x : Nat) (b : Byte) : (highPart x b).toNat = b.toNat / 2 ^ (x % 8) := by
  rw [highPart, BitVec.toNat_ushiftRight, Nat.shiftRight_eq_div_pow]

theorem toNat_lowPart (x : Nat) (b : Byte) : (lowPart x b).toNat = b.toNat * 2 ^ (8 - x % 8) % 256 := by
  rw [lowPart, BitVec.toNat_shiftLeft, Nat.shiftLeft_eq]

/-- A byte-aligned sprite spills nothing: the shift by 8 leaves no bit (R193). -/
theorem lowPart_of_aligned {x : Nat} (b : Byte) (h : x % 8 = 0) : lowPart x b = 0 := by
  rw [lowPart, h]
  exact BitVec.shiftLeft_eq_zero le_rfl

/-! ## Where a row lands -/

theorem eq_wrapIndex_iff {j : Fin 256} {n : Nat} : j = wrapIndex n ↔ j.val = n % 256 := Fin.ext_iff

theorem rowPart_rowBase (x y r : Nat) (b : Byte) : rowPart x y r b (wrapIndex (rowBase x y r)) = highPart x b := if_pos rfl

/-- The row's part on a byte, with the indices of its two bytes spelled out (R192). -/
theorem drawRow_get_of_index (x y r : Nat) (b : Byte) (f : Frame) (j : Fin 256) :
    (drawRow x y r b f).1[j.val] =
      if j.val = ((y + r) * 64 + x) / 8 % 256 then f[j.val] ^^^ highPart x b
      else if j.val = (((y + r) * 64 + x) / 8 + 1) % 256 then f[j.val] ^^^ lowPart x b
      else f[j.val] := by
  simp only [drawRow_get, rowPart, eq_wrapIndex_iff, rowBase, apply_ite (f[j.val] ^^^ ·),
    BitVec.ofNat_eq_ofNat, BitVec.xor_zero]

/-- A row XORs each pixel with a bit of the part on the pixel's byte. -/
theorem framePixel_drawRow (x y r : Nat) (b : Byte) (f : Frame) (p : Nat) :
    framePixel (drawRow x y r b f).1 p =
      (framePixel f p ^^ (rowPart x y r b (wrapIndex (p / 8))).getLsbD (7 - p % 8)) := by
  rw [framePixel, drawRow_get, BitVec.getLsbD_xor, framePixel]

/-- Bit 7 of a row byte, shifted right by x mod 8, is the pixel of column x in its byte (R193). -/
theorem getLsbD_highPart_column (x y r : Nat) (b : Byte) :
    (highPart x b).getLsbD (7 - ((y + r) * 64 + x) % 8) = b.getLsbD 7 := by
  have hbit : x % 8 + (7 - ((y + r) * 64 + x) % 8) = 7 := by omega
  rw [highPart, BitVec.getLsbD_ushiftRight, hbit]

/-- The leftmost pixel of a row lands at column x of the linear layout. -/
theorem framePixel_drawRow_leftmost (x y r : Nat) (b : Byte) (f : Frame) :
    framePixel (drawRow x y r b f).1 ((y + r) * 64 + x) = (framePixel f ((y + r) * 64 + x) ^^ b.getLsbD 7) := by
  have hpart : rowPart x y r b (wrapIndex (((y + r) * 64 + x) / 8)) = highPart x b := rowPart_rowBase x y r b
  rw [framePixel_drawRow, hpart, getLsbD_highPart_column]

/-- Settles O51, from the parts as numbers and what one row does to a byte and to a pixel. -/
theorem spriteRowsSplitAtTheByte : Obligations.SpriteRowsSplitAtTheByte := by
  intro x y r b f
  exact ⟨toNat_highPart x b, toNat_lowPart x b, lowPart_of_aligned b, drawRow_get_of_index x y r b f,
    framePixel_drawRow_leftmost x y r b f⟩

end Sys2Proof.Machine
end

section
/-! The stack errors (60_exceptions.md R213, R214): RET at SP = 0 and CALL at SP = 16 raise in place of any write, and a CALL
at any other SP takes one more level. -/

namespace Sys2Proof.Machine

/-- RET with nothing on the stack only raises (R214). -/
theorem exec_ret_of_empty {s : State} (h : s.sp = 0) :
    exec .ret s = .next (s.raise .stackUnderflow (encode .ret) 0) := by
  change execRet s = _
  rw [execRet, State.pop_empty h]

/-- CALL with every level in use only raises (R213). -/
theorem exec_call_of_full (addr : Nat) {s : State} (h : s.sp = 16) :
    exec (.call addr) s = .next (s.raise .stackOverflow (encode (.call addr)) 0) := by
  change execCall addr s = _
  rw [execCall, State.push_full s.pc h]

/-- CALL with a level free pushes the advanced PC and jumps (R122). -/
theorem exec_call_of_room (addr : Nat) {s : State} (h : s.sp.val < 16) :
    exec (.call addr) s =
      .next ({ s with stack := s.stack.set s.sp.val s.pc, sp := ⟨s.sp.val + 1, by omega⟩ }.setPC (absolute addr)) := by
  change execCall addr s = _
  rw [execCall, State.push_ok s.pc h]

/-- SP counts the 16 levels, so a CALL that does not find all of them in use finds one free. -/
theorem State.sp_lt_of_ne_full {s : State} (h : s.sp ≠ 16) : s.sp.val < 16 := Fin.val_lt_last h

/-- Settles O20, from what RET does on an empty stack and the frame of an error. -/
theorem retUnderflowsAtZero : Obligations.RetUnderflowsAtZero := by
  intro s hempty
  exact ⟨_, _, exec_ret_of_empty hempty, State.raise_run s .stackUnderflow (encode .ret) 0, rfl, onlyChanges_raise s _ _ _⟩

/-- Settles O23, by whether a level is free: a full stack raises, and any other takes the CALL. -/
theorem callOverflowsAtSixteen : Obligations.CallOverflowsAtSixteen := by
  intro addr s hrunning
  constructor
  · intro hfull
    exact ⟨_, _, exec_call_of_full addr hfull, State.raise_run s .stackOverflow (encode (.call addr)) 0, rfl,
      onlyChanges_raise s _ _ _⟩
  · intro hroom
    exact ⟨_, exec_call_of_room addr (State.sp_lt_of_ne_full hroom), hrunning, rfl⟩

end Sys2Proof.Machine
end

section
/-! The encoder against the decoder (30_encoding.md R70 to R78): what the fields read from each format's word, and the
format that a masked word with its fields makes up again. -/

namespace Sys2Proof

/-! ## The fields of a format's word -/

theorem fieldNNN_formatA {op addr : Nat} (ho : op < 16) (ha : addr < 4096) : fieldNNN (formatA op addr) = addr := by
  rw [fieldNNN, toNat_formatA ho ha]; omega

theorem fieldX_formatRB {op : Nat} (ho : op < 16) (x : Reg) (nn : Byte) : fieldX (formatRB op x nn) = x := by
  have hn := nn.isLt
  apply Fin.ext
  simp only [fieldX, toNat_formatRB ho]
  omega

theorem fieldNN_formatRB {op : Nat} (ho : op < 16) (x : Reg) (nn : Byte) : fieldNN (formatRB op x nn) = nn := by
  have hn := nn.isLt
  apply BitVec.eq_of_toNat_eq
  rw [fieldNN, toNat_formatRB ho, BitVec.toNat_ofNat]
  omega

theorem fieldX_formatRR {op t : Nat} (ho : op < 16) (ht : t < 16) (x y : Reg) : fieldX (formatRR op x y t) = x := by
  apply Fin.ext
  simp only [fieldX, toNat_formatRR ho ht]
  omega

theorem fieldY_formatRR {op t : Nat} (ho : op < 16) (ht : t < 16) (x y : Reg) : fieldY (formatRR op x y t) = y := by
  apply Fin.ext
  simp only [fieldY, toNat_formatRR ho ht]
  omega

theorem fieldN_formatRR {op t : Nat} (ho : op < 16) (ht : t < 16) (x y : Reg) : fieldN (formatRR op x y t) = t := by
  rw [fieldN, toNat_formatRR ho ht]; omega

theorem fieldX_formatRS {op sub : Nat} (ho : op < 16) (hs : sub < 256) (x : Reg) : fieldX (formatRS op x sub) = x := by
  apply Fin.ext
  simp only [fieldX, toNat_formatRS ho hs]
  omega

/-- The fields of an instruction's word hold its operands (R78). -/
theorem Instr.instr_fieldsOf_encode {i : Instr} (h : i.wellFormed = true) :
    (fieldsOf (encode i)).instr i.id = some i := by
  cases i with
  | cls | ret => rfl
  | jp addr | call addr | ldI addr | jpV0 addr =>
    have ha : addr < 4096 := of_decide_eq_true h
    simp [Fields.instr, fieldsOf, encode, Instr.id, fieldNNN_formatA, ha]
  | seByte | sneByte | ldByte | addByte | rnd =>
    simp [Fields.instr, fieldsOf, encode, Instr.id, fieldX_formatRB, fieldNN_formatRB]
  | seReg | ldReg | orReg | andReg | xorReg | addReg | subReg | shr | subnReg | shl | sneReg =>
    simp [Fields.instr, fieldsOf, encode, Instr.id, fieldX_formatRR, fieldY_formatRR]
  | drw x y n =>
    have hn : n < 16 := of_decide_eq_true h
    simp [Fields.instr, fieldsOf, encode, Instr.id, fieldX_formatRR, fieldY_formatRR, fieldN_formatRR, hn]
  | skp | sknp | ldVxDT | ldVxK | ldDTVx | ldSTVx | addI | ldF | ldB | storeRegs | loadRegs =>
    simp [Fields.instr, fieldsOf, encode, Instr.id, fieldX_formatRS]

open Laws.LooksUpOwnRow in
/-- The word of a well-formed instruction is looked up as the instruction's own row (R75, R77). -/
theorem instructionId_encode : ∀ i : Instr, i.wellFormed = true → instructionId (encode i) = i.id
  | .cls => cls
  | .ret => ret
  | .jp addr => jp addr
  | .call addr => call addr
  | .seByte x nn => seByte x nn
  | .sneByte x nn => sneByte x nn
  | .seReg x y => seReg x y
  | .ldByte x nn => ldByte x nn
  | .addByte x nn => addByte x nn
  | .ldReg x y => ldReg x y
  | .orReg x y => orReg x y
  | .andReg x y => andReg x y
  | .xorReg x y => xorReg x y
  | .addReg x y => addReg x y
  | .subReg x y => subReg x y
  | .shr x y => shr x y
  | .subnReg x y => subnReg x y
  | .shl x y => shl x y
  | .sneReg x y => sneReg x y
  | .ldI addr => ldI addr
  | .jpV0 addr => jpV0 addr
  | .rnd x nn => rnd x nn
  | .drw x y n => drw x y n
  | .skp x => skp x
  | .sknp x => sknp x
  | .ldVxDT x => ldVxDT x
  | .ldVxK x => ldVxK x
  | .ldDTVx x => ldDTVx x
  | .ldSTVx x => ldSTVx x
  | .addI x => addI x
  | .ldF x => ldF x
  | .ldB x => ldB x
  | .storeRegs x => storeRegs x
  | .loadRegs x => loadRegs x

theorem decode_encode {i : Instr} (h : i.wellFormed = true) : decode (encode i) = .ok i := by
  rw [decode, instructionId_encode i h, Instr.instr_fieldsOf_encode h]

/-! ## Bytes and words -/

@[simp] theorem wordOfBytes_bytesOfWord (op : Word) :
    wordOfBytes (BitVec.ofNat 8 (op.toNat / 256)) (BitVec.ofNat 8 op.toNat) = op := by
  have hop := op.isLt
  apply BitVec.eq_of_toNat_eq
  rw [Machine.toNat_wordOfBytes, BitVec.toNat_ofNat, BitVec.toNat_ofNat]
  omega

/-- The bytes of a word that decodes, before any others (R70). -/
theorem decodeBytes_bytesOfWord {op : Word} {i : Instr} (h : decode op = .ok i) (rest : List Byte) :
    decodeBytes (bytesOfWord op ++ rest) = .ok (i, rest) := by
  simp only [bytesOfWord, List.cons_append, List.nil_append, decodeBytes, wordOfBytes_bytesOfWord, h]

/-- Settles O2: the encoded word is looked up as the instruction's own row, and its fields hold the operands. -/
theorem decodeOfEncode : Obligations.DecodeOfEncode := by
  intro i hwf
  exact ⟨decode_encode hwf, decodeBytes_bytesOfWord (decode_encode hwf)⟩

/-! ## The word that its own fields make up -/

theorem formatA_fieldNNN {op : Word} {k : Nat} (hk : leadingNibble op = k) : formatA k (fieldNNN op) = op := by
  have hop := op.isLt
  simp only [leadingNibble] at hk
  apply BitVec.eq_of_toNat_eq
  rw [fieldNNN, toNat_formatA (by omega) (by omega)]
  omega

theorem formatRB_fields {op : Word} {k : Nat} (hk : leadingNibble op = k) :
    formatRB k (fieldX op) (fieldNN op) = op := by
  have hop := op.isLt
  simp only [leadingNibble] at hk
  apply BitVec.eq_of_toNat_eq
  rw [toNat_formatRB (by omega)]
  simp only [fieldX, fieldNN, BitVec.toNat_ofNat]
  omega

theorem formatRR_fields {op : Word} {k t : Nat} (hk : leadingNibble op = k) (ht : fieldN op = t) :
    formatRR k (fieldX op) (fieldY op) t = op := by
  have hop := op.isLt
  simp only [leadingNibble, fieldN] at hk ht
  apply BitVec.eq_of_toNat_eq
  rw [toNat_formatRR (by omega) (by omega)]
  simp only [fieldX, fieldY]
  omega

theorem formatRS_fieldX {op : Word} {k sub : Nat} (hk : leadingNibble op = k) (hs : op.toNat % 256 = sub) :
    formatRS k (fieldX op) sub = op := by
  have hop := op.isLt
  simp only [leadingNibble] at hk
  apply BitVec.eq_of_toNat_eq
  rw [toNat_formatRS (by omega) (by omega)]
  simp only [fieldX]
  omega

theorem leadingNibble_formatA {k addr : Nat} (hk : k < 16) (ha : addr < 4096) : leadingNibble (formatA k addr) = k := by
  rw [leadingNibble, toNat_formatA hk ha]; omega

theorem leadingNibble_formatRB {k : Nat} (hk : k < 16) (x : Reg) (nn : Byte) : leadingNibble (formatRB k x nn) = k := by
  have hn := nn.isLt
  rw [leadingNibble, toNat_formatRB hk]; omega

theorem leadingNibble_formatRR {k t : Nat} (hk : k < 16) (ht : t < 16) (x y : Reg) :
    leadingNibble (formatRR k x y t) = k := by
  rw [leadingNibble, toNat_formatRR hk ht]; omega

theorem leadingNibble_formatRS {k sub : Nat} (hk : k < 16) (hs : sub < 256) (x : Reg) :
    leadingNibble (formatRS k x sub) = k := by
  rw [leadingNibble, toNat_formatRS hk hs]; omega

/-! ## Masked words -/

/-- Every mask keeps the leading nibble (R74). -/
theorem leadingNibble_and_maskOf (op : Word) : leadingNibble (op &&& maskOf op) = leadingNibble op := by
  unfold leadingNibble maskOf
  split
  · rw [show (0xFFFF : Word) = BitVec.allOnes 16 from rfl, BitVec.and_allOnes]
  all_goals simp only [BitVec.ofNat_eq_ofNat, toNat_and_F000, toNat_and_F00F, toNat_and_F0FF]; omega

/-- Words with the same masked value have the same leading nibble. -/
theorem leadingNibble_eq_of_masked {op w : Word} (h : op &&& maskOf op = w &&& maskOf w) :
    leadingNibble op = leadingNibble w := by
  rw [← leadingNibble_and_maskOf op, h, leadingNibble_and_maskOf]

theorem maskOf_congr {op w : Word} (h : leadingNibble op = leadingNibble w) : maskOf op = maskOf w := by
  rw [maskOf, h, ← maskOf]

/-- In class T (R74) the masked value holds the trailing nibble. -/
theorem fieldN_eq_of_masked {op w : Word} (h : op &&& maskOf op = w &&& maskOf w) (hw : maskOf w = 0xF00F#16) :
    fieldN op = fieldN w := by
  rw [maskOf_congr (leadingNibble_eq_of_masked h), hw] at h
  have hn := congrArg (fun v : Word => v.toNat % 16) h
  simp only [toNat_and_F00F] at hn
  rw [fieldN, fieldN]
  omega

/-- In class B (R74) the masked value holds the low byte. -/
theorem lowByte_eq_of_masked {op w : Word} (h : op &&& maskOf op = w &&& maskOf w) (hw : maskOf w = 0xF0FF#16) :
    op.toNat % 256 = w.toNat % 256 := by
  rw [maskOf_congr (leadingNibble_eq_of_masked h), hw] at h
  have hn := congrArg (fun v : Word => v.toNat % 256) h
  simp only [toNat_and_F0FF] at hn
  omega

/-- A format RRT word (class T), made up again from a word of its masked value. -/
theorem formatRRT_of_masked {op : Word} {k t : Nat} (x y : Reg) (hk : k < 16) (ht : t < 16)
    (hmask : maskOf (formatRR k 0 0 t) = 0xF00F#16)
    (h : op &&& maskOf op = formatRR k x y t &&& maskOf (formatRR k x y t)) :
    formatRR k (fieldX op) (fieldY op) t = op := by
  have hk' := leadingNibble_formatRR hk ht
  have hmask' := (maskOf_congr ((hk' x y).trans (hk' 0 0).symm)).trans hmask
  exact formatRR_fields ((leadingNibble_eq_of_masked h).trans (hk' x y))
    ((fieldN_eq_of_masked h hmask').trans (fieldN_formatRR hk ht x y))

/-- A format RS word (class B), made up again from a word of its masked value. -/
theorem formatRS_of_masked {op : Word} {k sub : Nat} (x : Reg) (hk : k < 16) (hs : sub < 256)
    (hmask : maskOf (formatRS k 0 sub) = 0xF0FF#16)
    (h : op &&& maskOf op = formatRS k x sub &&& maskOf (formatRS k x sub)) :
    formatRS k (fieldX op) sub = op := by
  have hk' := leadingNibble_formatRS hk hs
  have hmask' := (maskOf_congr ((hk' x).trans (hk' 0).symm)).trans hmask
  have hlow : (formatRS k x sub).toNat % 256 = sub := by rw [toNat_formatRS hk hs]; omega
  exact formatRS_fieldX ((leadingNibble_eq_of_masked h).trans (hk' x)) ((lowByte_eq_of_masked h hmask').trans hlow)

/-! ## A word that decodes -/

theorem decode_eq_ok_iff {op : Word} {i : Instr} :
    decode op = .ok i ↔ (fieldsOf op).instr (instructionId op) = some i := by
  unfold decode
  split <;> simp_all

theorem decode_error_eq {op : Word} {e : DecodeReject} (h : decode op = .error e) : e = .unknownOpcode op := by
  unfold decode at h
  split at h <;> cases h
  rfl

/-- The fields of a word fit the ranges of the operands they give (R71). -/
theorem wellFormed_of_decode {op : Word} {i : Instr} (h : decode op = .ok i) : i.wellFormed = true := by
  have ha : addrInRange (fieldNNN op) = true := decide_eq_true (Nat.mod_lt _ (by decide))
  have hn : rowsInRange (fieldN op) = true := decide_eq_true (Nat.mod_lt _ (by decide))
  rw [decode_eq_ok_iff] at h
  unfold Fields.instr at h
  split at h <;> cases h <;> simp only [Instr.wellFormed, fieldsOf, ha, hn]

/-- A word that decodes is looked up as its instruction's row. -/
theorem lookup_of_decode {op : Word} {i : Instr} (h : decode op = .ok i) :
    decodeTable.lookup (op &&& maskOf op) = some i.id := by
  cases hlookup : decodeTable.lookup (op &&& maskOf op) with
  | none => rw [decode_of_lookup_eq_none hlookup] at h; cases h
  | some id =>
    obtain ⟨i', hi', rfl⟩ := decode_of_lookup_eq_some hlookup
    rw [h] at hi'
    cases hi'
    rfl

theorem instructionId_of_decode {op : Word} {i : Instr} (h : decode op = .ok i) : instructionId op = i.id := by
  rw [instructionId, lookup_of_decode h, Option.getD_some]

/-- No two rows share an Id#, so a word that decodes has the masked value of its instruction's own word (R76). -/
theorem masked_of_decode {op : Word} {i : Instr} (h : decode op = .ok i) :
    op &&& maskOf op = encode i &&& maskOf (encode i) := by
  have hop := mem_decodeTable_of_lookup (lookup_of_decode h)
  have henc := mem_decodeTable_of_lookup (lookup_of_decode (decode_encode (wellFormed_of_decode h)))
  have hnodup : (decodeTable.map Prod.snd).Nodup := by decide
  exact congrArg Prod.fst (List.inj_on_of_nodup_map hnodup hop henc rfl)

/-- The masked value and the fields together are the whole word. -/
theorem encode_of_decode {op : Word} {i : Instr} (h : decode op = .ok i) : encode i = op := by
  have hmask := masked_of_decode h
  have hnib := leadingNibble_eq_of_masked hmask
  have hfields : (fieldsOf op).instr i.id = some i := by rw [← instructionId_of_decode h]; exact decode_eq_ok_iff.mp h
  cases i with
  | cls | ret =>
    have hop : maskOf op = BitVec.allOnes 16 := maskOf_congr hnib
    rw [hop, BitVec.and_allOnes] at hmask
    exact hmask.symm
  | jp addr | call addr | ldI addr | jpV0 addr =>
    cases hfields
    exact formatA_fieldNNN (hnib.trans (leadingNibble_formatA (by decide) (Nat.mod_lt _ (by decide))))
  | seByte x nn | sneByte x nn | ldByte x nn | addByte x nn | rnd x nn =>
    cases hfields
    exact formatRB_fields (hnib.trans (leadingNibble_formatRB (by decide) _ _))
  | seReg x y | ldReg x y | orReg x y | andReg x y | xorReg x y | addReg x y | subReg x y | shr x y | subnReg x y
  | shl x y | sneReg x y =>
    cases hfields
    exact formatRRT_of_masked _ _ (by decide) (by decide) (by decide) hmask
  | drw x y n =>
    cases hfields
    exact formatRR_fields (hnib.trans (leadingNibble_formatRR (by decide) (Nat.mod_lt _ (by decide)) _ _)) rfl
  | skp x | sknp x | ldVxDT x | ldVxK x | ldDTVx x | ldSTVx x | addI x | ldF x | ldB x | storeRegs x | loadRegs x =>
    cases hfields
    exact formatRS_of_masked _ (by decide) (by decide) (by decide) hmask

/-- Settles O3: the fields fit their ranges, and with the masked value they make up the word. -/
theorem encodeOfDecode : Obligations.EncodeOfDecode := by
  intro op i h
  exact ⟨wellFormed_of_decode h, encode_of_decode h⟩

end Sys2Proof
end

section
/-! The legal words (30_encoding.md R79) and the decoder's ports (R80). -/

namespace Sys2Proof

/-- The trailing nibbles that the table has under each class T leading nibble. -/
theorem lookup_classT : ∀ t < 16,
    ((decodeTable.lookup (BitVec.ofNat 16 (0x5 * 4096 + t))).getD unknownId ≠ unknownId ↔ t = 0) ∧
    ((decodeTable.lookup (BitVec.ofNat 16 (0x8 * 4096 + t))).getD unknownId ≠ unknownId ↔ t ≤ 7 ∨ t = 0xE) ∧
    ((decodeTable.lookup (BitVec.ofNat 16 (0x9 * 4096 + t))).getD unknownId ≠ unknownId ↔ t = 0) := by decide

/-- The table has these low bytes under the class B leading nibbles, and no other. -/
theorem lookup_classB :
    (∀ b ∈ [0x9E, 0xA1], (decodeTable.lookup (BitVec.ofNat 16 (0xE * 4096 + b))).getD unknownId ≠ unknownId) ∧
    ∀ b ∈ [0x07, 0x0A, 0x15, 0x18, 0x1E, 0x29, 0x33, 0x55, 0x65],
      (decodeTable.lookup (BitVec.ofNat 16 (0xF * 4096 + b))).getD unknownId ≠ unknownId := by decide

theorem decodeTable_classB : ∀ row ∈ decodeTable,
    (leadingNibble row.1 = 0xE → row.1.toNat % 256 ∈ [0x9E, 0xA1]) ∧
    (leadingNibble row.1 = 0xF → row.1.toNat % 256 ∈ [0x07, 0x0A, 0x15, 0x18, 0x1E, 0x29, 0x33, 0x55, 0x65]) := by decide

/-- Every class L leading nibble has a row. -/
theorem lookup_classL : ∀ k < 16, k ∉ [0x0, 0x5, 0x8, 0x9, 0xE, 0xF] →
    maskOf (BitVec.ofNat 16 (k * 4096)) = 0xF000#16 ∧
    (decodeTable.lookup (BitVec.ofNat 16 (k * 4096))).getD unknownId ≠ unknownId := by decide

/-- The rows of class Z. -/
theorem decodeTable_classZ : ∀ row ∈ decodeTable, leadingNibble row.1 = 0 → row.1 = 0x00E0 ∨ row.1 = 0x00EE := by decide

/-- A word decodes when its Id# is a row's, and is rejected when its Id# is UnknownOpcode (R75). -/
theorem decode_cases (op : Word) :
    (instructionId op ≠ unknownId ∧ ∃ i, decode op = .ok i) ∨
    (instructionId op = unknownId ∧ decode op = .error (.unknownOpcode op)) := by
  cases hlookup : decodeTable.lookup (op &&& maskOf op) with
  | none => exact .inr ⟨by rw [instructionId, hlookup, Option.getD_none], decode_of_lookup_eq_none hlookup⟩
  | some id =>
    obtain ⟨i, hi, -⟩ := decode_of_lookup_eq_some hlookup
    have hlt : id < unknownId := decodeTable_id_lt _ (mem_decodeTable_of_lookup hlookup)
    exact .inl ⟨by rw [instructionId, hlookup, Option.getD_some]; exact hlt.ne, i, hi⟩

theorem instructionId_eq_unknownId_iff {op : Word} :
    instructionId op = unknownId ↔ decode op = .error (.unknownOpcode op) := by
  rcases decode_cases op with ⟨hne, i, hi⟩ | ⟨heq, herror⟩
  · simp [hne, hi]
  · simp [heq, herror]

theorem exists_decode_of_ne_unknownId {op : Word} (h : instructionId op ≠ unknownId) : ∃ i, decode op = .ok i :=
  (decode_cases op).elim And.right fun hmiss => absurd hmiss.1 h

/-- A word that decodes has the row of its masked value, with its own leading nibble. -/
theorem exists_row_of_ne_unknownId {op : Word} (h : instructionId op ≠ unknownId) :
    ∃ row ∈ decodeTable, row.1 = op &&& maskOf op ∧ leadingNibble row.1 = leadingNibble op := by
  obtain ⟨i, hi⟩ := exists_decode_of_ne_unknownId h
  exact ⟨_, mem_decodeTable_of_lookup (lookup_of_decode hi), rfl, leadingNibble_and_maskOf op⟩

/-- A class B word decodes when its low byte is one that the table has under its leading nibble. -/
theorem lowByte_mem_iff {op : Word} {k : Nat} {lows : List Nat} (hk : leadingNibble op = k)
    (hmask : maskOf op = 0xF0FF#16)
    (hhit : ∀ b ∈ lows, (decodeTable.lookup (BitVec.ofNat 16 (k * 4096 + b))).getD unknownId ≠ unknownId)
    (hrows : ∀ row ∈ decodeTable, leadingNibble row.1 = k → row.1.toNat % 256 ∈ lows) :
    op.toNat % 256 ∈ lows ↔ instructionId op ≠ unknownId := by
  constructor
  · intro hlow
    rw [instructionId_classB k hk hmask]
    exact hhit _ hlow
  · intro hne
    obtain ⟨row, hrow, hmasked, hnib⟩ := exists_row_of_ne_unknownId hne
    have hlow : row.1.toNat % 256 = op.toNat % 256 := by
      rw [hmasked, hmask, toNat_and_F0FF]
      omega
    exact hlow ▸ hrows row hrow (hnib.trans hk)

/-- The words of R79 are those that the table has. -/
theorem legalWord_iff (op : Word) : LegalWord op ↔ instructionId op ≠ unknownId := by
  have hop := op.isLt
  obtain ⟨h5, h8, h9⟩ := lookup_classT (op.toNat % 16) (Nat.mod_lt _ (by decide))
  unfold LegalWord
  split
  case h_1 hk =>
    constructor
    · rintro (rfl | rfl) <;> decide
    · intro hne
      obtain ⟨row, hrow, hmasked, hnib⟩ := exists_row_of_ne_unknownId hne
      have hmask : maskOf op = BitVec.allOnes 16 := maskOf_congr (w := 0x0000#16) hk
      rw [hmask, BitVec.and_allOnes] at hmasked
      exact hmasked ▸ decodeTable_classZ row hrow (hnib.trans hk)
  case h_2 hk => rw [instructionId_classT 0x5 hk (maskOf_congr (w := 0x5000#16) hk), h5]
  case h_3 hk => rw [instructionId_classT 0x8 hk (maskOf_congr (w := 0x8000#16) hk), h8]
  case h_4 hk => rw [instructionId_classT 0x9 hk (maskOf_congr (w := 0x9000#16) hk), h9]
  case h_5 hk =>
    exact lowByte_mem_iff hk (maskOf_congr (w := 0xE000#16) hk) lookup_classB.1 fun row hrow =>
      (decodeTable_classB row hrow).1
  case h_6 hk =>
    exact lowByte_mem_iff hk (maskOf_congr (w := 0xF000#16) hk) lookup_classB.2 fun row hrow =>
      (decodeTable_classB row hrow).2
  case h_7 h0 h5 h8 h9 hE hF =>
    have hlt : op.toNat / 4096 < 16 := by omega
    obtain ⟨hmask, hrow⟩ := lookup_classL _ hlt (by
      simp only [List.mem_cons, List.not_mem_nil, or_false, not_or]
      exact ⟨h0, h5, h8, h9, hE, hF⟩)
    have hnib : leadingNibble (BitVec.ofNat 16 (op.toNat / 4096 * 4096)) = op.toNat / 4096 := by
      rw [leadingNibble, BitVec.toNat_ofNat]; omega
    rw [instructionId_classL _ rfl ((maskOf_congr hnib.symm).trans hmask)]
    exact iff_of_true trivial hrow

/-- Settles O4: the legal words are those that the table has. -/
theorem exactlyTheLegalWordsDecode : Obligations.ExactlyTheLegalWordsDecode := by
  intro op
  rw [legalWord_iff, not_not]
  exact ⟨exists_decode_of_ne_unknownId, instructionId_eq_unknownId_iff.mp⟩

theorem decode_of_not_legalWord {op : Word} (h : ¬ LegalWord op) : decode op = .error (.unknownOpcode op) :=
  (exactlyTheLegalWordsDecode op).2 h

/-- A word of a format whose leading nibble takes trailing nibble 0 alone. -/
theorem decode_of_trailing {op : Word} (hk : leadingNibble op = 0x5 ∨ leadingNibble op = 0x9) (ht : op.toNat % 16 ≠ 0) :
    decode op = .error (.unknownOpcode op) := by
  apply decode_of_not_legalWord
  unfold leadingNibble at hk
  rcases hk with hk | hk <;> simpa only [LegalWord, hk] using ht

/-! ## Words written as numbers -/

theorem decodesTo_of_encode {w : Nat} {i : Instr} (hwf : i.wellFormed = true) (hw : BitVec.ofNat 16 w = encode i) :
    DecodesTo w i := by
  rw [DecodesTo, hw, decode_encode hwf]

/-- Settles O1, by evaluating the decoder on each word. -/
theorem specWordsDecode : Obligations.SpecWordsDecode := by
  unfold Obligations.SpecWordsDecode DecodesTo
  decide

/-! ## The decoder's ports -/

theorem decoder_unknown_iff (op : Word) : (decoder op).unknown = true ↔ instructionId op = unknownId := beq_iff_eq

/-- Settles O6: each field is the quotient and remainder that its bit slice is. -/
theorem decoderPortsAreBitSlices : Obligations.DecoderPortsAreBitSlices := by
  intro op
  refine ⟨?_, ?_, ?_, ?_, ?_, (decoder_unknown_iff op).trans instructionId_eq_unknownId_iff⟩
  · change op.toNat / 256 % 16 = _
    rw [BitVec.extractLsb'_toNat, Nat.shiftRight_eq_div_pow]
  · change op.toNat / 16 % 16 = _
    rw [BitVec.extractLsb'_toNat, Nat.shiftRight_eq_div_pow]
  · change op.toNat % 16 = _
    rw [BitVec.extractLsb'_toNat, Nat.shiftRight_zero]
  · exact BitVec.eq_of_toNat_eq (by simp [decoder, fieldsOf, fieldNN])
  · change op.toNat % 4096 = _
    rw [BitVec.extractLsb'_toNat, Nat.shiftRight_zero]

end Sys2Proof
end

section
/-! The operands that are words, as numbers (30_encoding.md R78): no address an instruction forms is truncated. -/

namespace Sys2Proof.Machine

theorem toNat_absolute {addr : Nat} (h : addr ≤ 0xFFF) : (absolute addr).toNat = addr := by
  rw [absolute, BitVec.toNat_ofNat]
  omega

theorem State.toNat_v0Target (s : State) {addr : Nat} (h : addr ≤ 0xFFF) :
    (s.v0Target addr).toNat = addr + (s.getV 0).toNat := by
  have hv := (s.getV 0).isLt
  rw [State.v0Target, BitVec.toNat_ofNat]
  omega

theorem State.toNat_glyphAddress (s : State) (x : Reg) : (s.glyphAddress x).toNat = 5 * (s.getV x).toNat := by
  have hv := (s.getV x).isLt
  rw [State.glyphAddress, BitVec.toNat_ofNat]
  exact Nat.mod_eq_of_lt (by omega)

theorem State.toNat_indexSum (s : State) {x : Reg} (h : s.indexSum x ≤ 0xFFF) :
    (BitVec.ofNat 16 (s.indexSum x)).toNat = s.indexSum x := by
  rw [BitVec.toNat_ofNat]
  omega

/-- A code that `deliverKey` takes is a byte (R174). -/
theorem toNat_keyCode {k : Nat} (h : k < 16) : (BitVec.ofNat 8 k).toNat = k := by
  rw [BitVec.toNat_ofNat]
  omega

end Sys2Proof.Machine
end

section
/-! What each instruction that can raise an error does (R211): one lemma for the error and one for completing, with the
condition in the words of the spec. RET on an empty stack and CALL on a full one stand above. -/

namespace Sys2Proof.Machine

/-- RET with a level in use pops PC (R120). -/
theorem exec_ret_of_pos {s : State} (h : 0 < s.sp.val) :
    exec .ret s =
      .next ({ s with sp := ⟨s.sp.val - 1, by omega⟩ }.setPC (s.stack[s.sp.val - 1]'(by omega))) := by
  change execRet s = _
  rw [execRet, State.pop_ok h]

/-- The state after a CALL with a level free (R122). -/
def State.called (s : State) (addr : Nat) (h : s.sp.val < 16) : State :=
  { s with stack := s.stack.set s.sp.val s.pc, sp := ⟨s.sp.val + 1, by omega⟩ }.setPC (absolute addr)

theorem exec_call_called (addr : Nat) {s : State} (h : s.sp.val < 16) : exec (.call addr) s = .next (s.called addr h) :=
  exec_call_of_room addr h

theorem State.called_stack_get (s : State) (addr : Nat) (h : s.sp.val < 16) (k : Fin 16) :
    (s.called addr h).stack[k.val] = if k.val = s.sp.val then s.pc else s.stack[k.val] := by
  change (s.stack.set s.sp.val s.pc)[k.val] = _
  rw [Vector.getElem_set]
  exact if_congr eq_comm rfl rfl

theorem onlyChanges_called (s : State) (addr : Nat) (h : s.sp.val < 16) :
    OnlyChanges [] [.sp, .stack, .pc] s (s.called addr h) :=
  (onlyChanges_push (State.push_ok s.pc h)).trans (onlyChanges_setPC _ _)

theorem exec_addI_of_le {x : Reg} {s : State} (h : s.indexSum x ≤ 0xFFF) :
    exec (.addI x) s = .next (s.setI (BitVec.ofNat 16 (s.indexSum x))) :=
  if_pos (Nat.lt_succ_of_le h)

theorem exec_addI_of_gt {x : Reg} {s : State} (h : 0xFFF < s.indexSum x) :
    exec (.addI x) s = .next (s.raise .memoryFault (encode (.addI x)) (s.indexSum x)) :=
  if_neg (Nat.not_lt.mpr h)

theorem exec_ldB_of_le {x : Reg} {s : State} (h : s.base + 2 ≤ 0xFFF) :
    exec (.ldB x) s = .next (s.writeBytes s.base (decimalDigits (s.getV x))) := by
  change execLdB x s = _
  rw [execLdB, State.memWrite_ok (Nat.succ_le_succ h)]

theorem exec_ldB_of_gt {x : Reg} {s : State} (h : 0xFFF < s.base + 2) :
    exec (.ldB x) s = .next (s.raise .memoryFault (encode (.ldB x)) (max s.base memSize)) := by
  change execLdB x s = _
  rw [execLdB, State.memWrite_error (bytes := decimalDigits (s.getV x)) (Nat.succ_pos 2) (Nat.succ_lt_succ h)]

theorem exec_storeRegs_of_le {x : Reg} {s : State} (h : s.base + x.val ≤ 0xFFF) :
    exec (.storeRegs x) s = .next (s.writeBytes s.base (s.regsUpTo x)) := by
  have hfit : s.base + (s.regsUpTo x).length ≤ memSize := by rw [State.regsUpTo_length]; exact Nat.succ_le_succ h
  change execStoreRegs x s = _
  rw [execStoreRegs, State.memWrite_ok hfit]

theorem exec_storeRegs_of_gt {x : Reg} {s : State} (h : 0xFFF < s.base + x.val) :
    exec (.storeRegs x) s = .next (s.raise .memoryFault (encode (.storeRegs x)) (max s.base memSize)) := by
  have hout : memSize < s.base + (s.regsUpTo x).length := by rw [State.regsUpTo_length]; exact Nat.succ_lt_succ h
  change execStoreRegs x s = _
  rw [execStoreRegs, State.memWrite_error (by rw [State.regsUpTo_length]; exact Nat.succ_pos _) hout]

/-- The bytes that LD Vx,[I] and DRW read, `n` of them from I on. -/
def State.bytesAtI (s : State) (n : Nat) : List Byte := (List.range n).map fun k => s.readByte (s.base + k)

theorem exec_loadRegs_of_le {x : Reg} {s : State} (h : s.base + x.val ≤ 0xFFF) :
    exec (.loadRegs x) s = .next (s.setRegsUpTo x fun k => (s.bytesAtI (x.val + 1)).getD k 0) := by
  change execLoadRegs x s = _
  rw [execLoadRegs, State.memRead_ok (.inr (Nat.succ_le_succ h))]
  rfl

theorem exec_loadRegs_of_gt {x : Reg} {s : State} (h : 0xFFF < s.base + x.val) :
    exec (.loadRegs x) s = .next (s.raise .memoryFault (encode (.loadRegs x)) (max s.base memSize)) := by
  change execLoadRegs x s = _
  rw [execLoadRegs, State.memRead_error (Nat.succ_pos _) (Nat.succ_lt_succ h)]

/-- The buffer and the collision that DRW makes of its `n` rows (R194). -/
def State.drawn (s : State) (x y : Reg) (n : Nat) : Frame × Bool :=
  draw (s.bytesAtI n) (s.getV x).toNat (s.getV y).toNat s.fb

theorem exec_drw_of_le (x y : Reg) {n : Nat} {s : State} (h : n = 0 ∨ s.base + n - 1 ≤ 0xFFF) :
    exec (.drw x y n) s =
      .next (((s.setFb (s.drawn x y n).1).setV vF (collisionFlag (s.drawn x y n).2)).emit .drew) := by
  have hfit : n = 0 ∨ s.base + n ≤ memSize := by simp only [memSize]; omega
  change execDrw x y n s = _
  rw [execDrw, State.memRead_ok hfit]
  rfl

theorem exec_drw_of_gt (x y : Reg) {n : Nat} {s : State} (hn : 0 < n) (h : 0xFFF < s.base + n - 1) :
    exec (.drw x y n) s = .next (s.raise .memoryFault (encode (.drw x y n)) (max s.base memSize)) := by
  have hout : memSize < s.base + n := by simp only [memSize]; omega
  change execDrw x y n s = _
  rw [execDrw, State.memRead_error hn hout]

end Sys2Proof.Machine
end

section
/-! What an instruction can do, said once for all of them: it raises the error of `Instr.errorOn`, or it completes,
writing what its rule lists, entering the run state and emitting the events of its rule (R13, R107, R210). -/

namespace Sys2Proof

open Sys2Proof.Machine

/-- A changed part that is the same after all is no change. -/
theorem OnlyChanges.of_same {regs : List Reg} {parts : List Part} {q : Part} {s t : State}
    (h : OnlyChanges regs (q :: parts) s t) (hq : q.same s t) : OnlyChanges regs parts s t :=
  ⟨h.1, fun p hp => if hpq : p = q then hpq ▸ hq else h.2 p (by simp [hpq, hp])⟩

/-- The frame of a DRW that completes (R194). -/
theorem onlyChanges_draw (s : State) (f : Frame) (flag : Byte) :
    OnlyChanges [vF] [.fb, .events] s (((s.setFb f).setV vF flag).emit .drew) :=
  ((onlyChanges_setFb s f).trans (onlyChanges_setV _ vF flag)).trans (onlyChanges_emit _ .drew)

/-- The address that an error of the instruction records (R36, R58, R161). -/
def Instr.faultAddr (i : Instr) (s : State) : Nat :=
  match i with
  | .addI x => s.indexSum x
  | .ldB _ | .storeRegs _ | .loadRegs _ | .drw _ _ _ => max s.base memSize
  | _ => 0

/-- The run state in which a completed instruction leaves the machine (R106). -/
def Instr.runAfter (i : Instr) (before : RunState) : RunState :=
  match i with
  | .ldVxK x => .waitingForKey x
  | _ => before

/-- The events that a completed instruction emits (R107). -/
def Instr.emitted : Instr → List Event
  | .cls | .drw _ _ _ => [.drew]
  | .ldVxK x => [.awaitingKey x]
  | _ => []

/-- The instruction, begun in `s`, is complete in `t`. -/
structure Instr.Completes (i : Instr) (s t : State) : Prop where
  frame : OnlyChanges i.writtenRegs i.writtenParts s t
  run : t.run = i.runAfter s.run
  events : t.events = i.emitted ++ s.events

/-- An instruction that neither waits nor emits is complete once what it changes is bounded by its rule. -/
theorem Instr.Completes.of_quiet {i : Instr} {parts : List Part} {s t : State}
    (h : OnlyChanges i.writtenRegs parts s t)
    (hparts : ∀ p ∈ parts, p ∈ i.writtenParts ∧ p ≠ .run ∧ p ≠ .events := by simp [Instr.writtenParts])
    (hafter : i.runAfter s.run = s.run := by rfl) (hemitted : i.emitted = [] := by rfl) :
    i.Completes s t where
  frame := h.mono (fun _ hr => hr) fun p hp => (hparts p hp).1
  run := by rw [hafter]; exact h.2 .run fun hp => (hparts _ hp).2.1 rfl
  events := by rw [hemitted]; exact h.2 .events fun hp => (hparts _ hp).2.2 rfl

/-- An instruction that raises an error does nothing else. -/
theorem exec_of_error {i : Instr} {s : State} {kind : ErrorKind} (h : i.errorOn s = some kind) :
    exec i s = .next (s.raise kind (encode i) (i.faultAddr s)) := by
  cases i <;> simp only [Instr.errorOn, Option.ite_none_right_eq_some, Option.some.injEq, reduceCtorEq] at h <;>
    obtain ⟨hcond, rfl⟩ := h
  case ret => exact exec_ret_of_empty hcond
  case call addr => exact exec_call_of_full addr hcond
  case addI x => exact exec_addI_of_gt hcond
  case ldB x => exact exec_ldB_of_gt hcond
  case storeRegs x => exact exec_storeRegs_of_gt hcond
  case loadRegs x => exact exec_loadRegs_of_gt hcond
  case drw x y n => exact exec_drw_of_gt x y hcond.1 hcond.2

/-! When an instruction that can raise an error raises none. -/

theorem errorOn_ret_eq_none {s : State} : Instr.ret.errorOn s = none ↔ 0 < s.sp.val := by
  simp [Instr.errorOn, Fin.pos_iff_ne_zero]

theorem sp_lt_of_errorOn_call {addr : Nat} {s : State} (h : (Instr.call addr).errorOn s = none) : s.sp.val < 16 :=
  State.sp_lt_of_ne_full (by simpa [Instr.errorOn] using h)

theorem errorOn_addI_eq_none {x : Reg} {s : State} : (Instr.addI x).errorOn s = none ↔ s.indexSum x ≤ 0xFFF := by
  simp [Instr.errorOn, State.indexSum]

theorem errorOn_ldB_eq_none {x : Reg} {s : State} : (Instr.ldB x).errorOn s = none ↔ s.base + 2 ≤ 0xFFF := by
  simp [Instr.errorOn, State.base]

theorem errorOn_storeRegs_eq_none {x : Reg} {s : State} :
    (Instr.storeRegs x).errorOn s = none ↔ s.base + x.val ≤ 0xFFF := by
  simp [Instr.errorOn, State.base]

theorem errorOn_loadRegs_eq_none {x : Reg} {s : State} :
    (Instr.loadRegs x).errorOn s = none ↔ s.base + x.val ≤ 0xFFF := by
  simp [Instr.errorOn, State.base]

theorem errorOn_drw_eq_none {x y : Reg} {n : Nat} {s : State} :
    (Instr.drw x y n).errorOn s = none ↔ n = 0 ∨ s.base + n - 1 ≤ 0xFFF := by
  simp [Instr.errorOn, State.base, imp_iff_not_or]

/-- An instruction that raises no error completes. -/
theorem exec_of_no_error {i : Instr} {s : State} (h : i.errorOn s = none) :
    ∃ t, exec i s = .next t ∧ i.Completes s t := by
  cases i with
  | cls => exact ⟨_, rfl, (onlyChanges_setFb s _).trans (onlyChanges_emit _ _), rfl, rfl⟩
  | ret =>
    have hpos := errorOn_ret_eq_none.mp h
    exact ⟨_, exec_ret_of_pos hpos, .of_quiet ((onlyChanges_pop (State.pop_ok hpos)).trans (onlyChanges_setPC _ _))⟩
  | jp addr | jpV0 addr => exact ⟨_, rfl, .of_quiet (onlyChanges_setPC s _)⟩
  | call addr =>
    have hroom := sp_lt_of_errorOn_call h
    exact ⟨_, exec_call_called addr hroom, .of_quiet (onlyChanges_called s addr hroom)⟩
  | seByte x nn | sneByte x nn | seReg x y | sneReg x y => exact ⟨_, rfl, .of_quiet (onlyChanges_skipIf s _)⟩
  | skp x | sknp x => exact ⟨_, rfl, .of_quiet ((onlyChanges_tookDraw s).trans (onlyChanges_skipIf _ _))⟩
  | ldByte x nn | addByte x nn | ldReg x y | orReg x y | andReg x y | xorReg x y | ldVxDT x =>
    exact ⟨_, rfl, .of_quiet (onlyChanges_setV s x _)⟩
  | addReg x y | subReg x y | shr x y | subnReg x y | shl x y =>
    exact ⟨_, rfl, .of_quiet (onlyChanges_setFlagThenV s _ x _)⟩
  | rnd x nn => exact ⟨_, rfl, .of_quiet ((onlyChanges_tookDraw s).trans (onlyChanges_setV _ x _))⟩
  | ldI addr | ldF x => exact ⟨_, rfl, .of_quiet (onlyChanges_setI s _)⟩
  | addI x =>
    have hle := errorOn_addI_eq_none.mp h
    exact ⟨_, exec_addI_of_le hle, .of_quiet (onlyChanges_setI s _)⟩
  | ldDTVx x => exact ⟨_, rfl, .of_quiet (onlyChanges_setDT s _)⟩
  | ldSTVx x => exact ⟨_, rfl, .of_quiet (onlyChanges_setST s _)⟩
  | ldVxK x => exact ⟨_, rfl, (onlyChanges_setRun s _).trans (onlyChanges_emit _ _), rfl, rfl⟩
  | ldB x =>
    have hle := errorOn_ldB_eq_none.mp h
    exact ⟨_, exec_ldB_of_le hle, .of_quiet (onlyChanges_writeBytes s _ _)⟩
  | storeRegs x =>
    have hle := errorOn_storeRegs_eq_none.mp h
    exact ⟨_, exec_storeRegs_of_le hle, .of_quiet (onlyChanges_writeBytes s _ _)⟩
  | loadRegs x =>
    have hle := errorOn_loadRegs_eq_none.mp h
    exact ⟨_, exec_loadRegs_of_le hle, .of_quiet (onlyChanges_setRegsUpTo s x _)⟩
  | drw x y n =>
    have hle := errorOn_drw_eq_none.mp h
    have hparts : ∀ p ∈ [Part.fb, .events], p ∈ (Instr.drw x y n).writtenParts := by simp [Instr.writtenParts]
    exact ⟨_, exec_drw_of_le x y hle, (onlyChanges_draw s _ _).mono (fun _ hr => hr) hparts, rfl, rfl⟩

/-- Everything an instruction can have done. -/
theorem exec_cases {i : Instr} {s t : State} (h : exec i s = .next t) :
    (∃ kind, i.errorOn s = some kind ∧ t = s.raise kind (encode i) (i.faultAddr s)) ∨
    (i.errorOn s = none ∧ i.Completes s t) := by
  cases herror : i.errorOn s with
  | some kind =>
    rw [exec_of_error herror] at h
    exact .inl ⟨kind, rfl, (Host.Outcome.next.inj h).symm⟩
  | none =>
    obtain ⟨t', ht', hcompletes⟩ := exec_of_no_error herror
    rw [ht'] at h
    exact .inr ⟨rfl, Host.Outcome.next.inj h ▸ hcompletes⟩

theorem exists_exec (i : Instr) (s : State) : ∃ t, exec i s = .next t := by
  cases herror : i.errorOn s with
  | some kind => exact ⟨_, exec_of_error herror⟩
  | none => exact (exec_of_no_error herror).imp fun _ ht => ht.1

/-- The rule of an instruction that can raise an error lists the run state and the events. -/
theorem Instr.run_events_mem_of_error {i : Instr} {s : State} {kind : ErrorKind} (h : i.errorOn s = some kind) :
    Part.run ∈ i.writtenParts ∧ Part.events ∈ i.writtenParts := by
  cases i with
  | ret | call | addI | ldB | storeRegs | loadRegs | drw => simp [Instr.writtenParts]
  | _ => cases h

/-- LD Vx,K is the only instruction that completes into a wait. -/
theorem Instr.eq_ldVxK_of_runAfter {i : Instr} {x : Reg} (h : i.runAfter .running = .waitingForKey x) :
    i = .ldVxK x := by
  cases i <;> cases h
  rfl

/-- No instruction completes into Halted. -/
theorem Instr.runAfter_ne_halted (i : Instr) (err : HaltRecord) : i.runAfter .running ≠ .halted err := by
  cases i <;> exact RunState.noConfusion

/-- Settles O14, by whether the instruction raises an error or completes. -/
theorem onlyKeyWaitSuspends : Obligations.OnlyKeyWaitSuspends := by
  intro i s t x hrunning hexec hwaiting
  rcases exec_cases hexec with ⟨kind, -, rfl⟩ | ⟨-, hcompletes⟩
  · cases hwaiting
  · rw [hcompletes.run, hrunning] at hwaiting
    exact Instr.eq_ldVxK_of_runAfter hwaiting

/-- Settles O15: an instruction that completes does not halt, and one that raises an error only raises it. -/
theorem errorsArePrecise : Obligations.ErrorsArePrecise := by
  intro i s t err hrunning hexec hhalted
  rcases exec_cases hexec with ⟨kind, -, rfl⟩ | ⟨-, hcompletes⟩
  · cases hhalted
    exact raise_raisesError s kind (encode i) (i.faultAddr s)
  · rw [hcompletes.run, hrunning] at hhalted
    exact absurd hhalted (i.runAfter_ne_halted err)

/-- Settles O17: an error writes the run state and the events, which the rule then lists. -/
theorem instructionsWriteOnlyWhatTheirRulesList : Obligations.InstructionsWriteOnlyWhatTheirRulesList := by
  intro i s t hexec
  rcases exec_cases hexec with ⟨kind, herror, rfl⟩ | ⟨-, hcompletes⟩
  · obtain ⟨hrun, hevents⟩ := Instr.run_events_mem_of_error herror
    exact (onlyChanges_raise s _ _ _).mono (by simp) (by simp [hrun, hevents])
  · exact hcompletes.frame

/-- Settles O18, by whether the instruction raises an error or completes. -/
theorem instructionsEmitTheirEvents : Obligations.InstructionsEmitTheirEvents := by
  intro i s t hrunning hexec
  rcases exec_cases hexec with ⟨kind, -, rfl⟩ | ⟨-, hcompletes⟩
  · refine ⟨fun err hhalted => ?_, fun hnot => absurd rfl (hnot _)⟩
    cases hhalted
    rfl
  · have hevents := hcompletes.events
    refine ⟨fun err hhalted => ?_, fun _ => ?_⟩
    · rw [hcompletes.run, hrunning] at hhalted
      exact absurd hhalted (i.runAfter_ne_halted err)
    · cases i <;> exact hevents

end Sys2Proof
end

section
/-! The machine cycle (40_machine_cycle.md R101 to R106): what one step does when the host's next transaction is a cycle,
and how the run state changes. -/

namespace Sys2Proof.Machine

theorem State.popSchedule_fetch (s : State) : s.popSchedule.fetch = s.fetch := rfl

theorem onlyChanges_popSchedule (s : State) : OnlyChanges [] [.schedule] s s.popSchedule := onlyChanges_schedule s _

theorem step_of_cycle {s : State} (h : s.nextTransaction = .cycle) : step s = cycle s.popSchedule := by
  rw [step_eq, h]
  rfl

theorem step_fetched {s : State} {op : Word} (hnext : s.nextTransaction = .cycle) (hrunning : s.run = .running)
    (hfetch : s.fetch = .ok op) : step s = executeWord op s.popSchedule.advancePC := by
  rw [step_of_cycle hnext, cycle_fetched (s := s.popSchedule) hrunning hfetch]

theorem step_unfetched {s : State} {addr : Nat} (hnext : s.nextTransaction = .cycle) (hrunning : s.run = .running)
    (hfetch : s.fetch = .error addr) : step s = .next (s.popSchedule.raiseFetch addr) := by
  rw [step_of_cycle hnext, cycle_unfetched (s := s.popSchedule) hrunning hfetch]

/-- After the fetch advance, PC − 2 is the instruction's address (R105). -/
theorem pc_advance_sub (w : Word) : w + 2 - 2 = w := BitVec.add_sub_cancel w 2

/-- Settles O7, from what a cycle does once the fetch gives a word that decodes. -/
theorem stepRunsTheDecodedInstruction : Obligations.StepRunsTheDecodedInstruction := by
  intro s i hrunning hnext hpc hdecode
  rw [decodeBytes_two] at hdecode
  rw [step_fetched hnext hrunning (State.fetch_ok hpc), executeWord_ok hdecode]
  rfl

/-- Settles O10: the fetched word as a number of its two bytes. -/
theorem fetchIsBigEndian : Obligations.FetchIsBigEndian := by
  intro s hpc
  exact ⟨_, State.fetch_ok hpc, toNat_wordOfBytes _ _⟩

/-- Settles O8, from what a cycle does once the fetch gives a word that is not legal. -/
theorem stepHaltsOnUnknownOpcode : Obligations.StepHaltsOnUnknownOpcode := by
  intro s op hrunning hnext hpc hop hillegal
  obtain ⟨op', hfetch, hop'⟩ := fetchIsBigEndian s hpc
  obtain rfl : op = op' := BitVec.eq_of_toNat_eq (hop.trans hop'.symm)
  have hstep : step s = .next (s.popSchedule.advancePC.raise .unknownOpcode op 0) := by
    rw [step_fetched hnext hrunning hfetch, executeWord_error (decode_of_not_legalWord hillegal)]
  have hframe := ((onlyChanges_popSchedule s).trans (onlyChanges_advancePC _)).trans
    (onlyChanges_raise s.popSchedule.advancePC .unknownOpcode op 0)
  have hpc0 : s.popSchedule.advancePC.pc - 2 = s.pc := pc_advance_sub s.pc
  refine ⟨_, hstep, ?_, ?_, rfl, rfl, hframe.mono (fun _ hr => hr) (by simp)⟩
  · rw [State.raise_run, hpc0]
  · rw [State.raise_events, hpc0]
    rfl

/-- Settles O9, from what a cycle does once the fetch faults. -/
theorem stepFaultsOutsideMemory : Obligations.StepFaultsOutsideMemory := by
  intro s hrunning hnext hpc
  have hstep := step_unfetched hnext hrunning (State.fetch_error hpc)
  have hframe := (onlyChanges_popSchedule s).trans (onlyChanges_raiseFetch _ (max s.pc.toNat 0x1000))
  exact ⟨_, hstep, rfl, rfl, rfl, hframe.mono (fun _ hr => hr) (by simp)⟩

/-- Settles O11: what an idle cycle does. -/
theorem cycleIdlesOutsideRunning : Obligations.CycleIdlesOutsideRunning := fun _ => cycle_idle

/-- Settles O12, by what the fetch and the decoder give: an error is a next state, and every instruction answers one. -/
theorem everyCycleCompletes : Obligations.EveryCycleCompletes := by
  intro s
  by_cases hrunning : s.run = .running
  · cases hfetch : s.fetch with
    | error addr => exact ⟨_, cycle_unfetched hrunning hfetch⟩
    | ok op =>
      rw [cycle_fetched hrunning hfetch]
      cases hdecode : decode op with
      | error e => exact ⟨_, executeWord_error hdecode _⟩
      | ok i =>
        rw [executeWord_ok hdecode]
        exact exists_exec i _
  · exact ⟨s, cycle_idle hrunning⟩

/-! ## When a cycle raises an error -/

/-- The error of an instruction depends on V, I and SP alone (R211). -/
theorem errorOn_congr {s t : State} (hv : t.v = s.v) (hi : t.i = s.i) (hsp : t.sp = s.sp) (i : Instr) :
    i.errorOn t = i.errorOn s := by
  have hget := State.getV_congr hv
  cases i <;> simp only [Instr.errorOn, hget, hi, hsp]

theorem State.pc_ge_of_fetch_error {s : State} {addr : Nat} (h : s.fetch = .error addr) : 0xFFF ≤ s.pc.toNat := by
  by_contra hc
  rw [State.fetch_ok (by omega)] at h
  cases h

theorem cycleRaises_iff_of_fault {s : State} {addr : Nat} (h : s.fetch = .error addr) (kind : ErrorKind) :
    CycleRaises s kind ↔ kind = .memoryFault := by
  have hpc := State.pc_ge_of_fetch_error h
  constructor
  · rintro (⟨-, hkind⟩ | ⟨hle, -⟩ | ⟨i, hi, -⟩)
    · exact hkind
    · omega
    · exact absurd hi (not_fetches_of_error h i)
  · exact fun hkind => .inl ⟨hpc, hkind⟩

theorem cycleRaises_iff_of_unknown {s : State} {op : Word} {e : DecodeReject} (h : s.fetch = .ok op)
    (hd : decode op = .error e) (kind : ErrorKind) : CycleRaises s kind ↔ kind = .unknownOpcode := by
  have hpc := State.pc_le_of_fetch_ok h
  have hnone : ∀ i, ¬ Fetches s i := by simp [fetches_iff h, hd]
  constructor
  · rintro (⟨hge, -⟩ | ⟨-, -, hkind⟩ | ⟨i, hi, -⟩)
    · omega
    · exact hkind
    · exact absurd hi (hnone i)
  · exact fun hkind => .inr (.inl ⟨hpc, hnone, hkind⟩)

theorem cycleRaises_iff_of_decode {s : State} {op : Word} {i : Instr} (h : s.fetch = .ok op) (hd : decode op = .ok i)
    (kind : ErrorKind) : CycleRaises s kind ↔ i.errorOn s = some kind := by
  have hpc := State.pc_le_of_fetch_ok h
  have hi : Fetches s i := (fetches_iff h i).mpr hd
  constructor
  · rintro (⟨hge, -⟩ | ⟨-, hnone, -⟩ | ⟨i', hi', herror⟩)
    · omega
    · exact absurd hi (hnone i)
    · rw [fetches_iff h, hd] at hi'
      cases hi'
      exact herror
  · exact fun herror => .inr (.inr ⟨i, hi, herror⟩)

/-! ## The run state (R106) -/

/-- The row of a cycle in Running that ends in Halted. -/
theorem runTransition_of_halted {s t : State} {err : HaltRecord} (hrunning : s.run = .running) (ht : t.run = .halted err)
    (hwait : ∀ x, ¬ Fetches s (.ldVxK x)) (hraises : ∀ kind, CycleRaises s kind ↔ kind = err.kind) :
    RunTransition .cycle s t := by
  simp only [RunTransition, hrunning, ht, hraises]
  refine ⟨fun x => ?_, fun kind => ?_, ?_⟩
  · simp [hwait]
  · simp [eq_comm]
  · simp

/-- The row of a cycle in Running whose instruction completes. -/
theorem runTransition_of_completes {s t : State} {i : Instr} (hrunning : s.run = .running)
    (hfetches : ∀ i', Fetches s i' ↔ i' = i) (hraises : ∀ kind, ¬ CycleRaises s kind)
    (ht : t.run = i.runAfter .running) : RunTransition .cycle s t := by
  simp only [RunTransition, hrunning, ht, hraises, hfetches]
  refine ⟨fun x => ⟨fun h => (Instr.eq_ldVxK_of_runAfter h).symm, fun h => ?_⟩, fun kind => ?_, ?_⟩
  · rw [← h]; rfl
  · simp [Instr.runAfter_ne_halted]
  · cases i <;> simp [Instr.runAfter]

/-- The last row: what is neither a reset, nor a cycle in Running, nor a delivery in a wait leaves the run state. -/
theorem runTransition_of_unchanged {tr : Transaction} {s t : State} (ht : t.run = s.run) (hreset : tr ≠ .reset)
    (hcycle : tr = .cycle → s.run ≠ .running) (hkey : ∀ k x, tr = .deliverKey k → s.run ≠ .waitingForKey x) :
    RunTransition tr s t := by
  unfold RunTransition
  split
  next => exact absurd rfl hreset
  next hrunning => exact absurd hrunning (hcycle rfl)
  next hwaiting => exact absurd hwaiting (hkey _ _ rfl)
  next => exact ht

/-- A step of a running machine that is a cycle changes the run state as R106 says. -/
theorem runTransition_cycle {s t : State} (hrunning : s.run = .running) (h : cycle s.popSchedule = .next t) :
    RunTransition .cycle s t := by
  rcases cycle_cases h with ⟨hidle, -⟩ | ⟨-, addr, hfetch, rfl⟩ | ⟨-, op, e, hfetch, hdecode, rfl⟩ |
    ⟨-, op, i, hfetch, hdecode, hexec⟩
  · exact absurd hrunning hidle
  · exact runTransition_of_halted hrunning (State.raiseFetch_run _ addr) (fun x => not_fetches_of_error hfetch _)
      (cycleRaises_iff_of_fault hfetch)
  · exact runTransition_of_halted hrunning (State.raise_run _ _ _ _)
      (fun x => by simp [fetches_iff (s := s) hfetch, hdecode]) (cycleRaises_iff_of_unknown hfetch hdecode)
  · rw [State.popSchedule_fetch] at hfetch
    have hraises := cycleRaises_iff_of_decode hfetch hdecode
    have herrorOn : i.errorOn s.popSchedule.advancePC = i.errorOn s := errorOn_congr rfl rfl rfl i
    rcases exec_cases hexec with ⟨kind, herror, rfl⟩ | ⟨hnone, hcompletes⟩
    · rw [herrorOn] at herror
      refine runTransition_of_halted hrunning (State.raise_run _ _ _ _) (fun x hx => ?_) fun kind' => ?_
      · rw [fetches_iff hfetch, hdecode] at hx
        cases hx
        cases herror
      · simp [hraises, herror, eq_comm]
    · rw [herrorOn] at hnone
      refine runTransition_of_completes (i := i) hrunning (fun i' => ?_) (by simp [hraises, hnone]) ?_
      · simp [fetches_iff hfetch, hdecode, eq_comm]
      · rw [hcompletes.run]
        exact congrArg i.runAfter hrunning

/-- Settles O13, by the transaction and, for a cycle and a delivery, by the run state before. -/
theorem runStateChangesAsTabled : Obligations.RunStateChangesAsTabled := by
  intro s t hstep
  rw [step_eq] at hstep
  cases htr : s.nextTransaction with
  | cycle =>
    rw [htr] at hstep
    by_cases hrunning : s.run = .running
    · exact runTransition_cycle hrunning hstep
    · obtain rfl := Host.Outcome.next.inj ((cycle_idle (s := s.popSchedule) hrunning).symm.trans hstep)
      exact runTransition_of_unchanged rfl (by simp) (fun _ => hrunning) (by simp)
  | tick | setKeys keys =>
    rw [htr] at hstep
    cases hstep
    exact runTransition_of_unchanged rfl (by simp) (by simp) (by simp)
  | reset =>
    rw [htr] at hstep
    cases hstep
    rfl
  | load image =>
    rw [htr] at hstep
    obtain ⟨-, rfl⟩ := load_cases hstep
    exact runTransition_of_unchanged rfl (by simp) (by simp) (by simp)
  | deliverKey k =>
    rw [htr] at hstep
    obtain ⟨hk, ⟨x, hwaiting, rfl⟩ | ⟨hnot, rfl⟩⟩ := deliverKey_cases hstep
    · simp only [RunTransition, show s.run = .waitingForKey x from hwaiting]
      exact ⟨rfl, by rw [State.getV_setRun, State.getV_setV_self, toNat_keyCode hk]⟩
    · exact runTransition_of_unchanged rfl (by simp) (by simp) fun _ x _ => hnot x

/-! ## Halted, and the end of a run -/

theorem onlyChanges_load {image : List Byte} {s t : State} (h : load image s = .next t) :
    OnlyChanges [] [.mem, .image] s t := by
  obtain ⟨-, rfl⟩ := load_cases h
  exact ⟨fun _ _ => rfl, fun p hp => by cases p <;> simp [Part.same] at hp ⊢⟩

/-- What the host can do to a halted machine but for a reset: it ticks the timers, loads, changes the keys, or nothing. -/
theorem transact_halted {tr : Transaction} {s t : State} {err : HaltRecord} (hhalted : s.run = .halted err)
    (hreset : tr ≠ .reset) (h : transact tr s = .next t) :
    (tr = .tick ∧ t = s.tick) ∨ (∃ image, tr = .load image ∧ OnlyChanges [] [.mem, .image] s t) ∨
    OnlyChanges [] [.keys] s t := by
  cases tr with
  | cycle =>
    obtain rfl := Host.Outcome.next.inj ((cycle_idle (by simp [hhalted])).symm.trans h)
    exact .inr (.inr (.refl _ _ _))
  | tick => exact .inl ⟨rfl, (Host.Outcome.next.inj h).symm⟩
  | reset => exact absurd rfl hreset
  | load image => exact .inr (.inl ⟨image, rfl, onlyChanges_load h⟩)
  | deliverKey k =>
    obtain ⟨-, ⟨x, hwaiting, -⟩ | ⟨-, rfl⟩⟩ := deliverKey_cases h
    · rw [hhalted] at hwaiting
      cases hwaiting
    · exact .inr (.inr (.refl _ _ _))
  | setKeys keys =>
    cases h
    exact .inr (.inr (onlyChanges_setKeys s keys))

/-- Settles O16, by what the transaction can do to a halted machine. -/
theorem onlyResetLeavesHalted : Obligations.OnlyResetLeavesHalted := by
  intro s t err hhalted hreset hstep
  have hpop := onlyChanges_popSchedule s
  rcases transact_halted (s := s.popSchedule) hhalted hreset hstep with ⟨htr, rfl⟩ | ⟨image, htr, hload⟩ | hkeys
  · have hframe := hpop.trans (onlyChanges_tick s.popSchedule)
    exact ⟨hframe.mono (fun _ hr => hr) (by simp), fun hnot => absurd htr hnot, fun _ =>
      ⟨hframe.2 .image (by simp), hframe.2 .mem (by simp)⟩⟩
  · have hframe := hpop.trans hload
    exact ⟨hframe.mono (fun _ hr => hr) (by simp), fun _ => ⟨hframe.2 .dt (by simp), hframe.2 .st (by simp)⟩,
      fun hnot => absurd htr (hnot image)⟩
  · have hframe := hpop.trans hkeys
    exact ⟨hframe.mono (fun _ hr => hr) (by simp), fun _ => ⟨hframe.2 .dt (by simp), hframe.2 .st (by simp)⟩,
      fun _ => ⟨hframe.2 .image (by simp), hframe.2 .mem (by simp)⟩⟩

/-- A jump to itself leaves the machine where it is. -/
theorem cycle_selfJump {s : State} {op : Word} (hrunning : s.run = .running) (hfetch : s.fetch = .ok op)
    (hdecode : decode op = .ok (.jp s.pc.toNat)) : cycle s = .next s := by
  have hexec : exec (.jp s.pc.toNat) s.advancePC = .next (s.advancePC.setPC (BitVec.ofNat 16 s.pc.toNat)) := rfl
  rw [cycle_fetched hrunning hfetch, executeWord_ok hdecode, hexec, BitVec.ofNat_toNat, BitVec.setWidth_eq]
  rfl

/-- Settles O59, by the way the run has ended. -/
theorem endedRunsStayPut : Obligations.EndedRunsStayPut := by
  rintro s (⟨err, hhalted⟩ | ⟨x, hwaiting, -⟩ | ⟨hrunning, op, hfetch, hdecode⟩)
  · exact cycle_idle (by simp [hhalted])
  · exact cycle_idle (by simp [hwaiting])
  · exact cycle_selfJump hrunning hfetch hdecode

/-! ## CALL and RET in two steps -/

theorem core_run_two {s t u : State} (h : step s = .next t) (h' : step t = .next u) : core.run 2 s = .next u := by
  simp only [Host.Core.run, show core.step = step from rfl, h, h']

theorem State.popSchedule_of_nil {s : State} (h : s.schedule = []) : s.popSchedule = s := by
  have htail : s.schedule.tail = s.schedule := by rw [h]; rfl
  exact congrArg (fun l => ({ s with schedule := l } : State)) htail

/-- With nothing scheduled a step of a running machine runs the instruction at PC (R109). -/
theorem step_of_nil {s : State} {op : Word} {i : Instr} (hschedule : s.schedule = []) (hrunning : s.run = .running)
    (hfetch : s.fetch = .ok op) (hdecode : decode op = .ok i) : step s = exec i s.advancePC := by
  have hnext : s.nextTransaction = .cycle := by rw [State.nextTransaction, hschedule]; rfl
  rw [step_fetched hnext hrunning hfetch, executeWord_ok hdecode, State.popSchedule_of_nil hschedule]

/-- A RET just after a CALL pops the word that the CALL pushed (R126). -/
theorem exec_ret_called {s : State} {addr : Nat} (h : s.sp.val < 16) :
    ∃ t, exec .ret (s.called addr h).advancePC = .next t ∧ t.pc = s.pc ∧ t.sp = s.sp ∧
      OnlyChanges [] [.pc, .stack] s t := by
  have hpos : 0 < (s.called addr h).advancePC.sp.val := Nat.succ_pos s.sp.val
  have hframe := fun w => (((onlyChanges_called s addr h).trans (onlyChanges_advancePC _)).trans
    (onlyChanges_pop (State.pop_ok hpos))).trans (onlyChanges_setPC _ w)
  exact ⟨_, exec_ret_of_pos hpos, Vector.getElem_set_self _, rfl,
    OnlyChanges.of_same (q := .sp) ((hframe _).mono (by simp) (by simp)) rfl⟩

/-- Settles O24: the CALL pushes the word after it, and the RET at its target pops that word. -/
theorem callThenRetReturns : Obligations.CallThenRetReturns := by
  intro s addr hrunning hschedule hpc haddr hroom hcall hret0 hret1
  rw [decodeBytes_two] at hcall
  have haddr' : (absolute addr).toNat = addr := toNat_absolute (by omega)
  have hfetch : (s.advancePC.called addr hroom).fetch = .ok 0x00EE := by
    have hpc' : (s.advancePC.called addr hroom).pc.toNat = addr := haddr'
    rw [State.fetch_ok (by omega), hpc', show (s.advancePC.called addr hroom).readByte addr = 0x00 from hret0,
      show (s.advancePC.called addr hroom).readByte (addr + 1) = 0xEE from hret1]
    rfl
  obtain ⟨t, ht, htpc, htsp, hframe⟩ := exec_ret_called (s := s.advancePC) (addr := addr) hroom
  have hstep : step s = .next (s.advancePC.called addr hroom) := by
    rw [step_of_nil hschedule hrunning (State.fetch_ok hpc) hcall]
    exact exec_call_called (s := s.advancePC) addr hroom
  have hstep' : step (s.advancePC.called addr hroom) = .next t := by
    rw [step_of_nil (s := s.advancePC.called addr hroom) hschedule hrunning hfetch rfl]
    exact ht
  exact ⟨t, core_run_two hstep hstep', htpc, htsp, ((onlyChanges_advancePC s).trans hframe).mono (by simp) (by simp)⟩

end Sys2Proof.Machine
end

section
/-! The invariant (Safety.lean, after R23, R24, R32, R33, R36): what each state update asks to keep it, then that every
instruction, cycle and transaction keeps it. -/

namespace Sys2Proof

open Sys2Proof.Machine

/-! ## One update at a time -/

theorem HaltConsistent.congr {s t : State} {err : HaltRecord} (h : HaltConsistent s err) (hpc : t.pc = s.pc)
    (hsp : t.sp = s.sp) : HaltConsistent t err := by
  unfold HaltConsistent at *
  rw [hpc, hsp]
  exact h

/-- The invariant reads memory, the parameters, PC, I, the stack, the image and the run state alone. -/
theorem Inv.congr {s t : State} (h : Inv s) (hcfg : t.cfg = s.cfg := by simp) (hmem : t.mem = s.mem := by simp)
    (hpc : t.pc = s.pc := by simp) (hi : t.i = s.i := by simp) (hsp : t.sp = s.sp := by simp)
    (hstack : t.stack = s.stack := by simp) (himage : t.image = s.image := by simp) (hrun : t.run = s.run := by simp) :
    Inv t where
  mem_wf := by rw [hcfg, hmem]; exact h.mem_wf
  font_intact hpolicy a ha := by
    rw [hcfg] at hpolicy
    simp only [State.readByte_congr hmem hcfg, hcfg]
    exact h.font_intact hpolicy a ha
  pc_le := by rw [hpc]; exact h.pc_le
  i_le := by rw [hi]; exact h.i_le
  stack_le := by rw [hstack]; exact h.stack_le
  image_le := by rw [himage]; exact h.image_le
  halt_consistent err hhalted := (h.halt_consistent err (hrun ▸ hhalted)).congr hpc hsp

section
variable {s : State} (h : Inv s)
include h

theorem Inv.setV (x : Reg) (b : Byte) : Inv (s.setV x b) := h.congr
theorem Inv.setFlagThenV (flag : Byte) (x : Reg) (b : Byte) : Inv (s.setFlagThenV flag x b) :=
  (h.setV vF flag).setV x b
theorem Inv.setRegsUpTo (k : Reg) (f : Nat → Byte) : Inv (s.setRegsUpTo k f) := h.congr
theorem Inv.setDT (b : Byte) : Inv (s.setDT b) := h.congr
theorem Inv.setST (b : Byte) : Inv (s.setST b) := h.congr
theorem Inv.setFb (f : Frame) : Inv (s.setFb f) := h.congr
theorem Inv.emit (e : Event) : Inv (s.emit e) := h.congr
theorem Inv.tookDraw : Inv s.tookDraw := h.congr
theorem Inv.tick : Inv s.tick := h.congr
theorem Inv.setKeys (keys : Vector Bool 16) : Inv (s.setKeys keys) := h.congr
theorem Inv.popSchedule : Inv s.popSchedule := h.congr rfl rfl rfl rfl rfl rfl rfl rfl

theorem Inv.setI {w : Word} (hw : w.toNat ≤ 0xFFF) : Inv (s.setI w) := { h with i_le := hw }

theorem Inv.setPC (hsafe : Safe s) {w : Word} (hw : w.toNat ≤ 0x10FE) : Inv (s.setPC w) :=
  { h with pc_le := hw, halt_consistent := fun err hhalted => absurd hhalted (hsafe err) }

theorem Inv.setRun {r : RunState} (hr : ∀ err, r ≠ .halted err) : Inv (s.setRun r) :=
  { h with halt_consistent := fun err hhalted => absurd hhalted (hr err) }

theorem Inv.setStack (hsafe : Safe s) {stack : Vector Word 16} (hstack : ∀ k : Fin 16, (stack[k.val]).toNat ≤ 0x1000)
    (sp : Fin 17) : Inv { s with stack := stack, sp := sp } :=
  { h with stack_le := hstack, halt_consistent := fun err hhalted => absurd hhalted (hsafe err) }

theorem Inv.halt {err : HaltRecord} (hconsistent : HaltConsistent s err) : Inv (s.halt err) :=
  { h with
    halt_consistent := fun err' hhalted => by
      cases hhalted
      exact hconsistent.congr rfl rfl }

/-- New contents of memory keep the invariant when they are in canonical form and keep the font. -/
theorem Inv.setMem {m : Memory} (hwf : Memory.wf s.cfg m)
    (hfont : s.cfg.fontStorePolicy = .discard → ∀ a < fontSize, Memory.read s.cfg m a = s.readByte a) :
    Inv { s with mem := m } :=
  { h with
    mem_wf := hwf
    font_intact := fun hpolicy a ha => (hfont hpolicy a ha).trans (h.font_intact hpolicy a ha) }

/-- A checked store keeps the invariant: a font byte is written under the policy `write` alone (R56). -/
theorem Inv.writeBytes {a : Nat} {bytes : List Byte} (hfit : a + bytes.length ≤ memSize) : Inv (s.writeBytes a bytes) := by
  have hwf := State.wf_writeBytes bytes h.mem_wf hfit
  have hread := State.readByte_writeBytes bytes s a
  obtain ⟨m, hm⟩ := s.writeBytes_eq bytes a
  rw [hm] at hwf hread ⊢
  refine h.setMem hwf fun hpolicy k hk => (hread k).trans (if_neg ?_)
  rintro ⟨-, -, hlands⟩
  exact State.storeDiscarded_eq_false_iff.mp hlands ⟨Nat.le_of_lt_succ hk, hpolicy⟩

end

/-! ## Reset and load -/

theorem resetByte_font (c : Config) {a : Nat} (h : a < fontSize) : resetByte c a = c.font[a] := dif_pos h

theorem Inv.construct (c : Config) : Inv (State.construct c) where
  mem_wf := Memory.wf_nil c
  font_intact _ _ ha := resetByte_font c ha
  pc_le := by change (0x200#16).toNat ≤ _; decide
  i_le := by change (0#16).toNat ≤ _; decide
  stack_le k := by
    change ((Vector.replicate 16 (0 : Word))[k.val]).toNat ≤ _
    simp
  image_le := Nat.zero_le _
  halt_consistent _ hhalted := by cases hhalted

/-- Settles O57: a new core, and so the one with the default parameters, satisfies the invariant. -/
theorem resetSatisfiesTheInvariant : Obligations.ResetSatisfiesTheInvariant := ⟨Inv.construct _, Inv.construct⟩

theorem Inv.hostReset {s : State} (h : Inv s) : Inv s.hostReset where
  mem_wf := Memory.wf_writeList s.image (Memory.wf_nil s.cfg) (Nat.add_le_add_left h.image_le programBase)
  font_intact _ a ha := by
    rw [readByte_hostReset, if_neg (fun hin => absurd (hin.1.trans_lt ha) (by decide))]
    exact resetByte_font s.cfg ha
  pc_le := (Inv.construct s.cfg).pc_le
  i_le := (Inv.construct s.cfg).i_le
  stack_le := (Inv.construct s.cfg).stack_le
  image_le := h.image_le
  halt_consistent _ hhalted := by cases hhalted

theorem Inv.load {image : List Byte} {s t : State} (h : Inv s) (hload : load image s = .next t) : Inv t := by
  have hread := fun a => (readByte_load hload a).2
  obtain ⟨hlen, rfl⟩ := load_cases hload
  have hfit : programBase + image.length ≤ memSize := Nat.add_le_add_left hlen programBase
  have hwf := Memory.wf_writeList image (Memory.wf_filter h.mem_wf fun p => p.1 < programBase) hfit
  have hmem := h.setMem hwf fun _ a ha => (hread a).trans (if_pos (ha.trans (by decide)))
  exact { hmem with image_le := hlen }

/-! ## Instructions -/

theorem toNat_advance {w : Word} (h : w.toNat ≤ 0x1000) : (w + 2).toNat = w.toNat + 2 := by bv_omega

theorem Inv.advancePC {s : State} (h : Inv s) (hrunning : s.run = .running) (hpc : s.pc.toNat ≤ 0xFFE) : Inv s.advancePC :=
  h.setPC (fun err => by simp [hrunning]) (by have := toNat_advance (w := s.pc) (by omega); omega)

theorem Inv.skipIf {s : State} (h : Inv s) (hsafe : Safe s) (hpc : s.pc.toNat ≤ 0x1000) (c : Bool) : Inv (s.skipIf c) := by
  have hadvance := toNat_advance hpc
  rw [State.skipIf_eq]
  refine h.setPC hsafe ?_
  split <;> omega

theorem Inv.called {s : State} (h : Inv s) (hsafe : Safe s) (hpc : s.pc.toNat ≤ 0x1000) {addr : Nat} (haddr : addr ≤ 0xFFF)
    (hroom : s.sp.val < 16) : Inv (s.called addr hroom) := by
  have htarget := toNat_absolute haddr
  have hstack : ∀ k : Fin 16, ((s.called addr hroom).stack[k.val]).toNat ≤ 0x1000 := by
    intro k
    rw [State.called_stack_get]
    split
    · exact hpc
    · exact h.stack_le k
  exact (h.setStack hsafe hstack _).setPC hsafe (by omega)

/-- The record of an error fits a state whose PC is just past an instruction within memory (R36, R211). -/
theorem haltConsistent_of_error {i : Instr} {s : State} {kind : ErrorKind} (h : Inv s) (hwf : i.wellFormed = true)
    (hpc : 2 ≤ s.pc.toNat ∧ s.pc.toNat ≤ 0x1000) (herror : i.errorOn s = some kind) :
    HaltConsistent s { kind := kind, pc0 := s.pc - 2, opcode := encode i, addr := i.faultAddr s } := by
  have hi := h.i_le
  refine .inr ⟨by bv_omega, (BitVec.sub_add_cancel s.pc 2).symm, ?_⟩
  cases i <;> simp only [Instr.errorOn, Option.ite_none_right_eq_some, Option.some.injEq, reduceCtorEq] at herror <;>
    obtain ⟨hcond, rfl⟩ := herror
  case ret => exact ⟨rfl, hcond, rfl⟩
  case call addr => exact ⟨rfl, hcond, leadingNibble_formatA (by decide) (of_decide_eq_true hwf)⟩
  case addI x =>
    have hx := (s.getV x).isLt
    simp only [Instr.faultAddr, State.indexSum]
    omega
  all_goals
    simp only [Instr.faultAddr, State.base, memSize]
    omega

/-- An instruction that raises no error keeps the invariant. -/
theorem Inv.exec_of_no_error {i : Instr} {s t : State} (h : Inv s) (hsafe : Safe s) (hwf : i.wellFormed = true)
    (hpc : s.pc.toNat ≤ 0x1000) (herror : i.errorOn s = none) (hexec : exec i s = .next t) : Inv t := by
  cases i with
  | cls =>
    cases hexec
    exact (h.setFb _).emit _
  | ret =>
    have hpos := errorOn_ret_eq_none.mp herror
    have htop := h.stack_le ⟨s.sp.val - 1, by omega⟩
    rw [exec_ret_of_pos hpos] at hexec
    cases hexec
    exact (h.setStack hsafe h.stack_le ⟨s.sp.val - 1, by omega⟩).setPC hsafe (htop.trans (by decide))
  | jp addr =>
    have haddr : addr ≤ 0xFFF := Nat.le_of_lt_succ (of_decide_eq_true hwf)
    cases hexec
    exact h.setPC hsafe (by rw [toNat_absolute haddr]; omega)
  | jpV0 addr =>
    have haddr : addr ≤ 0xFFF := Nat.le_of_lt_succ (of_decide_eq_true hwf)
    have hv0 := (s.getV 0).isLt
    cases hexec
    exact h.setPC hsafe (by rw [s.toNat_v0Target haddr]; omega)
  | call addr =>
    have haddr : addr ≤ 0xFFF := Nat.le_of_lt_succ (of_decide_eq_true hwf)
    have hroom := sp_lt_of_errorOn_call herror
    rw [exec_call_called addr hroom] at hexec
    cases hexec
    exact h.called hsafe hpc haddr hroom
  | seByte x nn | sneByte x nn | seReg x y | sneReg x y =>
    cases hexec
    exact h.skipIf hsafe hpc _
  | skp x | sknp x =>
    cases hexec
    exact h.tookDraw.skipIf hsafe hpc _
  | ldByte x nn | addByte x nn | ldReg x y | orReg x y | andReg x y | xorReg x y | ldVxDT x =>
    cases hexec
    exact h.setV _ _
  | addReg x y | subReg x y | shr x y | subnReg x y | shl x y =>
    cases hexec
    exact h.setFlagThenV _ _ _
  | rnd x nn =>
    cases hexec
    exact h.tookDraw.setV _ _
  | ldI addr =>
    have haddr : addr ≤ 0xFFF := Nat.le_of_lt_succ (of_decide_eq_true hwf)
    cases hexec
    exact h.setI (by rw [toNat_absolute haddr]; exact haddr)
  | ldF x =>
    have hx := (s.getV x).isLt
    cases hexec
    exact h.setI (by rw [State.toNat_glyphAddress]; omega)
  | addI x =>
    have hle := errorOn_addI_eq_none.mp herror
    rw [exec_addI_of_le hle] at hexec
    cases hexec
    exact h.setI (by rw [s.toNat_indexSum hle]; exact hle)
  | ldDTVx x =>
    cases hexec
    exact h.setDT _
  | ldSTVx x =>
    cases hexec
    exact h.setST _
  | ldVxK x =>
    cases hexec
    exact (h.setRun (by simp)).emit _
  | ldB x =>
    have hle := errorOn_ldB_eq_none.mp herror
    rw [exec_ldB_of_le hle] at hexec
    cases hexec
    exact h.writeBytes (Nat.succ_le_succ hle)
  | storeRegs x =>
    have hle := errorOn_storeRegs_eq_none.mp herror
    rw [exec_storeRegs_of_le hle] at hexec
    cases hexec
    exact h.writeBytes (by rw [State.regsUpTo_length]; exact Nat.succ_le_succ hle)
  | loadRegs x =>
    have hle := errorOn_loadRegs_eq_none.mp herror
    rw [exec_loadRegs_of_le hle] at hexec
    cases hexec
    exact h.setRegsUpTo _ _
  | drw x y n =>
    have hle := errorOn_drw_eq_none.mp herror
    rw [exec_drw_of_le x y hle] at hexec
    cases hexec
    exact ((h.setFb _).setV _ _).emit _

/-- An instruction of a running machine keeps the invariant. -/
theorem Inv.exec {i : Instr} {s t : State} (h : Inv s) (hrunning : s.run = .running) (hwf : i.wellFormed = true)
    (hpc : 2 ≤ s.pc.toNat ∧ s.pc.toNat ≤ 0x1000) (hexec : exec i s = .next t) : Inv t := by
  cases herror : i.errorOn s with
  | some kind =>
    rw [exec_of_error herror] at hexec
    cases hexec
    exact h.halt (haltConsistent_of_error h hwf hpc herror)
  | none => exact h.exec_of_no_error (fun err => by simp [hrunning]) hwf hpc.2 herror hexec

/-! ## Cycles and steps -/

/-- A cycle keeps the invariant: a fetch that succeeds leaves PC just past an instruction within memory. -/
theorem Inv.cycle {s t : State} (h : Inv s) (hcycle : cycle s = .next t) : Inv t := by
  rcases cycle_cases hcycle with ⟨-, rfl⟩ | ⟨-, addr, hfetch, rfl⟩ | ⟨hrunning, op, e, hfetch, hdecode, rfl⟩ |
    ⟨hrunning, op, i, hfetch, hdecode, hexec⟩
  · exact h
  · have hpc := State.pc_ge_of_fetch_error hfetch
    rw [State.fetch_error hpc] at hfetch
    cases hfetch
    exact h.halt (.inl ⟨rfl, rfl, rfl, hpc, rfl⟩)
  · have hpc := State.pc_le_of_fetch_ok hfetch
    obtain rfl := decode_error_eq hdecode
    have hconsistent : HaltConsistent s.advancePC ⟨.unknownOpcode, s.advancePC.pc - 2, op, 0⟩ := by
      rw [State.advancePC_pc, pc_advance_sub]
      exact .inr ⟨hpc, rfl, rfl, hdecode⟩
    exact (h.advancePC hrunning hpc).halt hconsistent
  · have hpc := State.pc_le_of_fetch_ok hfetch
    have hadvance : s.advancePC.pc.toNat = s.pc.toNat + 2 := toNat_advance (by omega)
    exact (h.advancePC hrunning hpc).exec hrunning (wellFormed_of_decode hdecode) (by omega) hexec

/-- Every transaction keeps the invariant of the state it is applied to. -/
theorem Inv.transact {tr : Transaction} {s t : State} (h : Inv s) (htransact : transact tr s = .next t) : Inv t := by
  cases tr with
  | cycle => exact h.cycle htransact
  | tick =>
    cases htransact
    exact h.tick
  | reset =>
    cases htransact
    exact h.hostReset
  | load image => exact h.load htransact
  | deliverKey k =>
    obtain ⟨-, ⟨x, -, rfl⟩ | ⟨-, rfl⟩⟩ := deliverKey_cases htransact
    · exact (h.setV _ _).setRun (by simp)
    · exact h
  | setKeys keys =>
    cases htransact
    exact h.setKeys keys

/-- Settles O58: a step is a transaction, taken off the schedule. -/
theorem everyStepKeepsTheInvariant : Obligations.EveryStepKeepsTheInvariant := by
  intro s t h hstep
  rw [step_eq] at hstep
  exact h.popSchedule.transact hstep

end Sys2Proof
end

section
/-! Control transfer (41_control_transfer.md): RET, JP, JP V0 and CALL. -/

namespace Sys2Proof.Machine

/-- Settles O19, from what RET does with a level in use. -/
theorem retPopsTheReturnAddress : Obligations.RetPopsTheReturnAddress := by
  intro s hpos
  exact ⟨_, exec_ret_of_pos hpos, rfl, rfl,
    ((onlyChanges_pop (State.pop_ok hpos)).trans (onlyChanges_setPC _ _)).mono (by simp) (by simp)⟩

/-- Settles O21: neither target is truncated. -/
theorem jumpsSetPC : Obligations.JumpsSetPC := by
  intro addr s haddr
  exact ⟨⟨_, rfl, toNat_absolute haddr, onlyChanges_setPC s _⟩, _, rfl, s.toNat_v0Target haddr, onlyChanges_setPC s _⟩

/-- Settles O22, from what CALL does with a level free. -/
theorem callPushesTheReturnAddress : Obligations.CallPushesTheReturnAddress := by
  intro addr s haddr hroom
  exact ⟨_, exec_call_called addr hroom, rfl, toNat_absolute haddr, s.called_stack_get addr hroom,
    (onlyChanges_called s addr hroom).mono (by simp) (by simp)⟩

end Sys2Proof.Machine
end

section
/-! The conditional skips (42_conditional_skips.md). -/

namespace Sys2Proof.Machine

theorem State.skipIf_pc (s : State) (c : Bool) : (s.skipIf c).pc = if c then s.pc + 2 else s.pc := by
  rw [State.skipIf_eq, State.setPC_pc]

theorem State.skipIf_draws (s : State) (c : Bool) : (s.skipIf c).draws = s.draws := by
  rw [State.skipIf_eq, State.setPC_draws]

/-- Settles O25, from the words of format RB and what a skip does to PC. -/
theorem skipsOnByte : Obligations.SkipsOnByte := by
  intro x nn s
  exact ⟨decodesTo_of_encode (i := .seByte x nn) rfl rfl, decodesTo_of_encode (i := .sneByte x nn) rfl rfl,
    ⟨_, rfl, by simp [State.skipIf_pc], onlyChanges_skipIf s _⟩, _, rfl, by simp [State.skipIf_pc], onlyChanges_skipIf s _⟩

/-- Under 5 and 9 no word with a trailing nibble above 0 decodes (R79). -/
theorem not_decodesTo_of_trailing {w k n : Nat} {x y : Reg} (hw : BitVec.ofNat 16 w = formatRR k x y n)
    (hk : k = 0x5 ∨ k = 0x9) (hpos : 0 < n) (hn : n < 16) (i : Instr) : ¬ DecodesTo w i := by
  have hnib := leadingNibble_formatRR (k := k) (by omega) hn x y
  have htrail : fieldN (formatRR k x y n) ≠ 0 := by rw [fieldN_formatRR (by omega) hn]; exact hpos.ne'
  rw [DecodesTo, hw, decode_of_trailing (by rwa [hnib]) htrail]
  exact nofun

/-- Settles O26, from the words of format RRT and what a skip does to PC. -/
theorem skipsOnRegister : Obligations.SkipsOnRegister := by
  intro x y s
  exact ⟨decodesTo_of_encode (i := .seReg x y) rfl rfl, decodesTo_of_encode (i := .sneReg x y) rfl rfl,
    fun n hpos hn i => ⟨not_decodesTo_of_trailing (k := 0x5) (x := x) (y := y) rfl (.inl rfl) hpos hn i,
      not_decodesTo_of_trailing (k := 0x9) (x := x) (y := y) rfl (.inr rfl) hpos hn i⟩,
    ⟨_, rfl, by simp [State.skipIf_pc], onlyChanges_skipIf s _⟩, _, rfl, by simp [State.skipIf_pc], onlyChanges_skipIf s _⟩

/-- Settles O27: the draw is taken, then the skip is made on its answer, which the code alone settles. -/
theorem skipsOnKey : Obligations.SkipsOnKey := by
  intro x s
  have hframe : ∀ c, OnlyChanges [] [.pc, .draws] s (s.tookDraw.skipIf c) := fun c =>
    ((onlyChanges_tookDraw s).trans (onlyChanges_skipIf _ c)).mono (by simp) (by simp)
  exact ⟨⟨_, rfl, State.skipIf_pc _ _, State.skipIf_draws _ _, hframe _⟩,
    ⟨_, rfl, by cases s.drawKey (s.getV x) <;> rfl, State.skipIf_draws _ _, hframe _⟩,
    fun hcode => dif_pos hcode, fun hcode => dif_neg hcode.not_gt⟩

end Sys2Proof.Machine
end

section
/-! Register loads, arithmetic and logic (43_register_alu.md): the words of the formats, then the values and the flags. -/

namespace Sys2Proof.Machine

/-- Settles O28, from the two words and the write of one register. -/
theorem loadsSetVx : Obligations.LoadsSetVx := by
  intro x y nn s
  exact ⟨decodesTo_of_encode (i := .ldByte x nn) rfl rfl, decodesTo_of_encode (i := .ldReg x y) rfl rfl,
    ⟨_, rfl, s.getV_setV_self x _, onlyChanges_setV s x _⟩, _, rfl, s.getV_setV_self x _, onlyChanges_setV s x _⟩

/-- Settles O29, from the word and the sum as a number. -/
theorem addByteWrapsWithoutFlag : Obligations.AddByteWrapsWithoutFlag := by
  intro x nn s
  exact ⟨decodesTo_of_encode (i := .addByte x nn) rfl rfl, _, rfl,
    by rw [State.getV_setV_self, BitVec.toNat_add], onlyChanges_setV s x _⟩

/-- The words of format RRT under 8, with the sub-op nibble written first. -/
theorem formatRR_alu (x y : Reg) (t : Nat) :
    BitVec.ofNat 16 (0x8000 + t + x.val * 0x100 + y.val * 0x10) = formatRR 0x8 x y t :=
  congrArg (BitVec.ofNat 16) (by omega)

/-- Settles O30, from the three words and the bits of the three operations. -/
theorem logicIsBitwise : Obligations.LogicIsBitwise := by
  intro x y s
  refine ⟨decodesTo_of_encode (i := .orReg x y) rfl (formatRR_alu x y 1),
    decodesTo_of_encode (i := .andReg x y) rfl (formatRR_alu x y 2),
    decodesTo_of_encode (i := .xorReg x y) rfl (formatRR_alu x y 3),
    ⟨_, rfl, onlyChanges_setV s x _, fun k => ?_⟩, ⟨_, rfl, onlyChanges_setV s x _, fun k => ?_⟩,
    _, rfl, onlyChanges_setV s x _, fun k => ?_⟩
  · rw [State.getV_setV_self, BitVec.getLsbD_or]
  · rw [State.getV_setV_self, BitVec.getLsbD_and]
  · rw [State.getV_setV_self, BitVec.getLsbD_xor]

/-! ## Results with a flag (R34, R142) -/

@[simp] theorem State.getV_setFlagThenV_self (s : State) (flag : Byte) (x : Reg) (b : Byte) :
    (s.setFlagThenV flag x b).getV x = b := by
  rw [State.getV_setFlagThenV, if_pos rfl]

theorem State.getV_setFlagThenV_vF (s : State) (flag : Byte) {x : Reg} (hx : x ≠ vF) (b : Byte) :
    (s.setFlagThenV flag x b).getV vF = flag := by
  rw [State.getV_setFlagThenV, if_neg hx.symm, if_pos rfl]

theorem carryFlag_eq (a b : Byte) : carryFlag a b = if a.toNat + b.toNat > 255 then 1 else 0 := by
  simp [carryFlag, flagOf]

theorem noBorrowFlag_eq (a b : Byte) : noBorrowFlag a b = if a.toNat ≥ b.toNat then 1 else 0 := by
  simp [noBorrowFlag, flagOf]

theorem toNat_sub_byte (a b : Byte) : (a - b).toNat = (a.toNat + 256 - b.toNat) % 256 := by bv_omega

theorem toNat_lowBitOut (a : Byte) : (lowBitOut a).toNat = a.toNat % 2 := by
  rw [lowBitOut, BitVec.toNat_and]
  exact Nat.and_one_is_mod a.toNat

theorem toNat_highBitOut (a : Byte) : (highBitOut a).toNat = a.toNat / 128 := by
  have ha := a.isLt
  have hlow := toNat_lowBitOut (a >>> 7)
  rw [BitVec.toNat_ushiftRight, Nat.shiftRight_eq_div_pow] at hlow
  exact hlow.trans (by omega)

/-- Settles O31, from the sum as a number and the carry. -/
theorem addRegCarries : Obligations.AddRegCarries := by
  intro x y s
  refine ⟨_, rfl, ?_, fun hx => ?_, onlyChanges_setFlagThenV s _ x _⟩
  · rw [State.getV_setFlagThenV_self, BitVec.toNat_add]
  · rw [State.getV_setFlagThenV_vF _ _ hx, carryFlag_eq]

/-- Settles O32, from the difference as a number and the flag of no borrow. -/
theorem subtractionsBorrow : Obligations.SubtractionsBorrow := by
  intro x y s
  refine ⟨⟨_, rfl, ?_, fun hx => ?_, onlyChanges_setFlagThenV s _ x _⟩,
    _, rfl, ?_, fun hx => ?_, onlyChanges_setFlagThenV s _ x _⟩
  · rw [State.getV_setFlagThenV_self, toNat_sub_byte]
  · rw [State.getV_setFlagThenV_vF _ _ hx, noBorrowFlag_eq]
  · rw [State.getV_setFlagThenV_self, toNat_sub_byte]
  · rw [State.getV_setFlagThenV_vF _ _ hx, noBorrowFlag_eq]

/-- Settles O33, from the shifts and the bits shifted out as numbers. -/
theorem shiftsMoveOneBit : Obligations.ShiftsMoveOneBit := by
  intro x y s
  refine ⟨⟨_, rfl, ?_, fun hx => ?_, onlyChanges_setFlagThenV s _ x _⟩,
    _, rfl, ?_, fun hx => ?_, onlyChanges_setFlagThenV s _ x _⟩
  · rw [State.getV_setFlagThenV_self, BitVec.toNat_ushiftRight, Nat.shiftRight_eq_div_pow, Nat.pow_one]
  · rw [State.getV_setFlagThenV_vF _ _ hx, toNat_lowBitOut]
  · rw [State.getV_setFlagThenV_self, BitVec.toNat_shiftLeft, Nat.shiftLeft_eq, Nat.pow_one]
  · rw [State.getV_setFlagThenV_vF _ _ hx, toNat_highBitOut]

/-- Settles O34: the draw is taken and its masked byte written. -/
theorem rndMasksAFreshDraw : Obligations.RndMasksAFreshDraw := by
  intro x nn s
  exact ⟨_, rfl, State.getV_setV_self _ x _, rfl, (onlyChanges_tookDraw s).trans (onlyChanges_setV _ x _)⟩

end Sys2Proof.Machine
end

section
/-! The index register and the memory transfers (44_index_memory.md; 20_memory.md R58, R64). -/

namespace Sys2Proof.Machine

/-- Settles O35: neither value is truncated. -/
theorem indexLoads : Obligations.IndexLoads := by
  intro addr x s haddr
  exact ⟨⟨_, rfl, toNat_absolute haddr, onlyChanges_setI s _⟩, _, rfl, s.toNat_glyphAddress x, onlyChanges_setI s _⟩

/-- Settles O36, from what ADD I does within memory. -/
theorem addIAdvancesTheIndex : Obligations.AddIAdvancesTheIndex := by
  intro x s hle
  exact ⟨_, exec_addI_of_le hle, s.toNat_indexSum hle, onlyChanges_setI s _⟩

/-- Settles O37, from what ADD I does past memory. -/
theorem addIFaultsPastMemory : Obligations.AddIFaultsPastMemory := by
  intro x s hgt
  have hword : BitVec.ofNat 16 (0xF01E + x.val * 0x100) = encode (.addI x) := congrArg (BitVec.ofNat 16) (by omega)
  rw [hword]
  exact ⟨_, exec_addI_of_gt hgt, raise_raisesError s _ _ _⟩

/-! ## Stores -/

theorem State.readByte_writeBytes_outside (s : State) {a k : Nat} {bytes : List Byte}
    (h : k < a ∨ a + bytes.length ≤ k ∨ s.storeDiscarded k = true) : (s.writeBytes a bytes).readByte k = s.readByte k := by
  rw [State.readByte_writeBytes, if_neg]
  rintro ⟨hle, hlt, hlands⟩
  rcases h with h | h | h
  · omega
  · omega
  · simp [h] at hlands

theorem State.readByte_writeBytes_at (s : State) {a k : Nat} {bytes : List Byte} (hk : k < bytes.length)
    (hlands : s.storeDiscarded (a + k) = false) : (s.writeBytes a bytes).readByte (a + k) = bytes.getD k 0 := by
  rw [State.readByte_writeBytes, if_pos ⟨Nat.le_add_right a k, Nat.add_lt_add_left hk a, hlands⟩, Nat.add_sub_cancel_left]

/-- A digit of a byte is a byte. -/
theorem toNat_digit {b : Byte} {n : Nat} (h : n ≤ b.toNat) : (BitVec.ofNat 8 n).toNat = n := by
  have hb := b.isLt
  rw [BitVec.toNat_ofNat]
  omega

/-- Settles O39, from what a store of the three digits leaves at each address. -/
theorem ldBStoresTheDigits : Obligations.LdBStoresTheDigits := by
  intro x s hle
  refine ⟨_, exec_ldB_of_le hle, onlyChanges_writeBytes s _ _, fun a ha => ?_, fun hlands => ?_, fun hlands => ?_,
    fun hlands => ?_⟩
  · exact s.readByte_writeBytes_outside ha
  · have hdigit := s.readByte_writeBytes_at (bytes := decimalDigits (s.getV x)) (k := 0) (by simp) hlands
    exact (congrArg BitVec.toNat hdigit).trans (toNat_digit (Nat.div_le_self _ _))
  · have hdigit := s.readByte_writeBytes_at (bytes := decimalDigits (s.getV x)) (k := 1) (by simp) hlands
    exact (congrArg BitVec.toNat hdigit).trans (toNat_digit ((Nat.mod_le _ _).trans (Nat.div_le_self _ _)))
  · have hdigit := s.readByte_writeBytes_at (bytes := decimalDigits (s.getV x)) (k := 2) (by simp) hlands
    exact (congrArg BitVec.toNat hdigit).trans (toNat_digit (Nat.mod_le _ _))

/-- A register that LD [I],Vx stores is read back at its address, unless the store is discarded (R164, R56). -/
theorem State.readByte_writeRegs (s : State) {x k : Reg} (hk : k.val ≤ x.val)
    (hlands : s.storeDiscarded (s.base + k.val) = false) :
    (s.writeBytes s.base (s.regsUpTo x)).readByte (s.base + k.val) = s.getV k := by
  rw [s.readByte_writeBytes_at (by rw [State.regsUpTo_length]; omega) hlands, State.regsUpTo_getD s x hk, State.getV]

/-- Settles O40, from what a store of the registers leaves at each address. -/
theorem storeRegsStoresV0ToVx : Obligations.StoreRegsStoresV0ToVx := by
  intro x s hle
  refine ⟨_, exec_storeRegs_of_le hle, onlyChanges_writeBytes s _ _, fun a ha => ?_, fun k => s.readByte_writeRegs⟩
  exact s.readByte_writeBytes_outside (by rw [State.regsUpTo_length]; exact ha)

/-- Settles O43: past the font no store is discarded, so the two bytes at PC are the two registers. -/
theorem storesAreSeenByTheNextFetch : Obligations.StoresAreSeenByTheNextFetch := by
  intro x k s t hle hpc hfont hk hexec
  rw [exec_storeRegs_of_le hle] at hexec
  cases hexec
  obtain ⟨m, hm⟩ := s.writeBytes_eq (s.regsUpTo x) s.base
  have hpc' : (s.writeBytes s.base (s.regsUpTo x)).pc = s.pc := by rw [hm]
  have hlands : ∀ a, s.pc.toNat ≤ a → s.storeDiscarded a = false := fun a ha =>
    State.storeDiscarded_eq_false_iff.mpr fun hdiscarded => by omega
  have hfirst := s.readByte_writeRegs (k := k) (x := x) (by omega) (hlands _ hpc.le)
  have hnext : s.pc.toNat ≤ s.base + (k.val + 1) := by rw [hpc]; exact Nat.le_succ _
  have hsecond := s.readByte_writeRegs (k := ⟨k.val + 1, by omega⟩) (x := x) hk (hlands _ hnext)
  rw [State.fetch_ok (by rw [hpc']; omega), hpc', hpc]
  exact congrArg Except.ok (congrArg₂ wordOfBytes hfirst hsecond)

/-! ## Loads -/

theorem State.bytesAtI_getD (s : State) {n k : Nat} (h : k < n) : (s.bytesAtI n).getD k 0 = s.readByte (s.base + k) := by
  simp [State.bytesAtI, h]

/-- Settles O41, from the bytes read and the registers they are written to. -/
theorem loadRegsLoadsV0ToVx : Obligations.LoadRegsLoadsV0ToVx := by
  intro x s hle
  refine ⟨_, exec_loadRegs_of_le hle, fun k => ?_, (onlyChanges_setRegsUpTo s x _).mono (by simp) (fun _ hp => hp)⟩
  rw [State.getV_setRegsUpTo]
  split
  · exact s.bytesAtI_getD (by omega)
  · rfl

/-- Settles O42, from what each transfer does when its range passes memory. -/
theorem transfersFaultAsAWhole : Obligations.TransfersFaultAsAWhole := by
  intro x y n s
  exact ⟨fun hgt => ⟨_, exec_ldB_of_gt hgt, raise_raisesError s _ _ _⟩,
    fun hgt => ⟨_, exec_storeRegs_of_gt hgt, raise_raisesError s _ _ _⟩,
    fun hgt => ⟨_, exec_loadRegs_of_gt hgt, raise_raisesError s _ _ _⟩,
    fun hn hgt => ⟨_, exec_drw_of_gt x y hn hgt, raise_raisesError s _ _ _⟩⟩

end Sys2Proof.Machine
end

section
/-! Timers and keys (45_timers_keys.md). -/

namespace Sys2Proof.Machine

/-- The words of format RS under F, with the sub-op byte written first. -/
theorem formatRS_timer (x : Reg) (sub : Nat) : BitVec.ofNat 16 (0xF000 + sub + x.val * 0x100) = formatRS 0xF x sub :=
  congrArg (BitVec.ofNat 16) (by omega)

/-- Settles O44, from the three words and the write of one register or timer. -/
theorem timerInstructions : Obligations.TimerInstructions := by
  intro x s
  exact ⟨decodesTo_of_encode (i := .ldVxDT x) rfl (formatRS_timer x 0x07),
    decodesTo_of_encode (i := .ldDTVx x) rfl (formatRS_timer x 0x15),
    decodesTo_of_encode (i := .ldSTVx x) rfl (formatRS_timer x 0x18),
    ⟨_, rfl, s.getV_setV_self x _, onlyChanges_setV s x _⟩, ⟨_, rfl, rfl, onlyChanges_setDT s _⟩,
    _, rfl, rfl, bne_iff_ne, onlyChanges_setST s _⟩

/-- Settles O45: the run state is set and the request emitted, nothing more. -/
theorem keyWaitSuspends : Obligations.KeyWaitSuspends := by
  intro x s
  exact ⟨_, rfl, rfl, rfl, (onlyChanges_setRun s _).trans (onlyChanges_emit _ _)⟩

theorem deliverKey_waiting {k : Nat} {s : State} {x : Reg} (hk : k < 16) (hwaiting : s.run = .waitingForKey x) :
    deliverKey k s = .next ((s.setV x (BitVec.ofNat 8 k)).setRun .running) := by
  simp only [deliverKey, hk, hwaiting, if_true]

theorem deliverKey_idle {k : Nat} {s : State} (hk : k < 16) (hnot : ∀ x, s.run ≠ .waitingForKey x) :
    deliverKey k s = .next s := by
  rw [deliverKey, if_pos hk]
  split
  next hwaiting => exact absurd hwaiting (hnot _)
  · rfl
  · rfl

/-- Settles O46, by the code and the run state. -/
theorem deliverKeyResolvesAWait : Obligations.DeliverKeyResolvesAWait := by
  intro k s
  refine ⟨fun hk x hwaiting => ⟨_, deliverKey_waiting hk hwaiting, ?_, rfl, ?_⟩, deliverKey_idle,
    fun hk => if_neg (Nat.not_lt.mpr hk)⟩
  · rw [State.getV_setRun, State.getV_setV_self, toNat_keyCode hk]
  · exact (onlyChanges_setV s x _).trans (onlyChanges_setRun _ _)

end Sys2Proof.Machine
end

section
/-! Reset and load (70_reset_and_hazards.md R230 to R232; 40_machine_cycle.md R108). -/

namespace Sys2Proof.Machine

theorem resetByte_above_font (c : Config) {a : Nat} (h : fontSize ≤ a) : resetByte c a = 0 := dif_neg h.not_gt

/-- A new core is one just reset, with the empty image (R231). -/
theorem hostReset_construct (c : Config) : (State.construct c).hostReset = State.construct c := rfl

/-- Below the program base a reset leaves the font and zeros. -/
theorem readByte_hostReset_low (s : State) {a : Nat} (h : a < programBase) :
    s.hostReset.readByte a = resetByte s.cfg a := by
  rw [readByte_hostReset, if_neg (fun hin => absurd hin.1 h.not_ge)]

theorem readByte_hostReset_font (s : State) {a : Nat} (h : a < fontSize) : s.hostReset.readByte a = s.cfg.font[a] := by
  rw [readByte_hostReset_low s (h.trans (by decide)), resetByte_font s.cfg h]

theorem getV_hostReset (s : State) (x : Reg) : s.hostReset.getV x = 0 := Vector.getElem_replicate x.isLt

/-- Settles O53: construction too is a reset. -/
theorem resetLeavesTheResetValues : Obligations.ResetLeavesTheResetValues := by
  intro c s t ht
  obtain ⟨u, rfl⟩ : ∃ u : State, t = u.hostReset := by
    rcases ht with rfl | ht
    · exact ⟨State.construct c, (hostReset_construct c).symm⟩
    · exact ⟨s, (Host.Outcome.next.inj ht).symm⟩
  exact ⟨rfl, rfl, rfl, getV_hostReset u, rfl, rfl, fun a => readByte_hostReset_font u, rfl⟩

/-- Settles O54, by the region of memory. -/
theorem resetRebuildsMemoryFromTheImage : Obligations.ResetRebuildsMemoryFromTheImage := by
  intro s
  refine ⟨s.hostReset, rfl, rfl, fun a => readByte_hostReset_font s, fun a hfont hlow => ?_, fun k hk => ?_, fun a ha => ?_,
    fun k => Vector.getElem_replicate k.isLt, fun j => Vector.getElem_replicate j.isLt, rfl, rfl, rfl, rfl, rfl⟩
  · rw [readByte_hostReset_low s hlow, resetByte_above_font s.cfg hfont]
  · rw [readByte_hostReset, if_pos ⟨Nat.le_add_right _ k, Nat.add_lt_add_left hk _⟩, Nat.add_sub_cancel_left,
      List.getD_eq_getElem _ _ hk]
  · have hbase : programBase ≤ a := le_of_add_le_left ha
    rw [readByte_hostReset, if_neg (fun hin => absurd hin.2 ha.not_gt),
      resetByte_above_font s.cfg (le_trans (by decide) hbase)]

theorem not_legalWord_zero : ¬ LegalWord 0x0000 := by
  change ¬ ((0x0000 : Word) = 0x00E0 ∨ (0x0000 : Word) = 0x00EE)
  decide

theorem readByte_construct (c : Config) {a : Nat} (h : fontSize ≤ a) : (State.construct c).readByte a = 0 :=
  resetByte_above_font c h

/-- Settles O55: the bytes at 0x200 of a new core are zeros, and 0x0000 is no legal word. -/
theorem constructionIsReset : Obligations.ConstructionIsReset := by
  intro c
  have hpc : (State.construct c).pc.toNat = 0x200 := rfl
  have hword : (0x0000 : Word).toNat = ((State.construct c).readByte (State.construct c).pc.toNat).toNat * 256 +
      ((State.construct c).readByte ((State.construct c).pc.toNat + 1)).toNat := by
    rw [hpc, readByte_construct c (by decide), readByte_construct c (by decide)]
    rfl
  obtain ⟨t, hstep, hrun, -, htpc, -⟩ :=
    stepHaltsOnUnknownOpcode (State.construct c) 0x0000 rfl rfl (by rw [hpc]; decide) hword not_legalWord_zero
  exact ⟨rfl, rfl, t, hstep, hrun, htpc⟩

/-- Settles O56, by whether the image fits, and then by the region of memory. -/
theorem loadWritesTheImage : Obligations.LoadWritesTheImage := by
  intro image s
  refine ⟨fun hlen => ?_, fun hlen => if_neg hlen.not_ge⟩
  obtain ⟨t, hload⟩ : ∃ t, load image s = .next t := ⟨_, if_pos hlen⟩
  have himage : t.image = image := by obtain ⟨-, rfl⟩ := load_cases hload; rfl
  refine ⟨t, hload, himage, fun a ha => ?_, fun k hk => ?_, fun a ha => ?_, onlyChanges_load hload⟩
  · rw [(readByte_load hload a).2, if_pos ha]
  · rw [(readByte_load hload _).2, if_neg (Nat.le_add_right _ k).not_gt, if_pos (Nat.add_lt_add_left hk _),
      Nat.add_sub_cancel_left, List.getD_eq_getElem _ _ hk]
  · have hbase : programBase ≤ a := le_of_add_le_left ha
    rw [(readByte_load hload a).2, if_neg hbase.not_gt, if_neg ha.not_gt,
      resetByte_above_font s.cfg (le_trans (by decide) hbase)]

end Sys2Proof.Machine
end

section
/-! Drawing pixel by pixel (46_framebuffer.md R192 to R200): which pixels a row and a sprite cover, that the rows of one
draw lie on different bytes, and so what a draw does to each pixel and when it collides. -/

namespace Sys2Proof.Machine

/-! ## The rows of a draw lie apart (R197) -/

theorem wrapIndex_add_ne (n : Nat) {d : Nat} (hpos : 0 < d) (hd : d < 256) : wrapIndex (n + d) ≠ wrapIndex n := by
  intro h
  rw [eq_wrapIndex_iff] at h
  simp only [wrapIndex] at h
  omega

/-- Row `r` against a later row that is at most 14 rows below. -/
theorem wrapIndex_later_row_ne (x y r : Nat) {d : Nat} (hpos : 0 < d) (hd : d ≤ 14) {e e' : Nat} (he : e ≤ 1)
    (he' : e' ≤ 1) : wrapIndex (rowBase x y (r + d) + e') ≠ wrapIndex (rowBase x y r + e) := by
  have hsplit : rowBase x y (r + d) + e' = rowBase x y r + e + (8 * d + e' - e) := by rw [rowBase_add]; omega
  rw [hsplit]
  exact wrapIndex_add_ne _ (by omega) (by omega)

/-- Settles O52, by which row is the later one. -/
theorem spritePartsLandApart : Obligations.SpritePartsLandApart := by
  intro x y r r' hr hr'
  rcases Nat.lt_trichotomy r r' with hlt | rfl | hlt
  · obtain ⟨d, rfl⟩ := Nat.exists_eq_add_of_lt hlt
    have hlater := fun e e' => wrapIndex_later_row_ne x y r (d := d + 1) (by omega) (by omega) (e := e) (e' := e')
    exact ⟨(hlater 0 1 (by omega) (by omega)).symm, fun _ =>
      ⟨(hlater 0 0 (by omega) (by omega)).symm, (hlater 1 1 (by omega) (by omega)).symm⟩⟩
  · exact ⟨(wrapIndex_succ_ne _).symm, fun hne => absurd rfl hne⟩
  · obtain ⟨d, rfl⟩ := Nat.exists_eq_add_of_lt hlt
    have hlater := fun e e' => wrapIndex_later_row_ne x y r' (d := d + 1) (by omega) (by omega) (e := e) (e' := e')
    exact ⟨hlater 1 0 (by omega) (by omega), fun _ =>
      ⟨hlater 0 0 (by omega) (by omega), hlater 1 1 (by omega) (by omega)⟩⟩

/-- The part of a row on a byte, when neither of the row's two bytes is that byte. -/
theorem rowPart_eq_zero {x y r : Nat} (b : Byte) {j : Fin 256} (h0 : j ≠ wrapIndex (rowBase x y r))
    (h1 : j ≠ wrapIndex (rowBase x y r + 1)) : rowPart x y r b j = 0 := by
  rw [rowPart, if_neg h0, if_neg h1]

theorem rowPart_ne_zero {x y r : Nat} {b : Byte} {j : Fin 256} (h : rowPart x y r b j ≠ 0) :
    ∃ e ≤ 1, j = wrapIndex (rowBase x y r + e) := by
  by_cases h0 : j = wrapIndex (rowBase x y r)
  · exact ⟨0, by omega, h0⟩
  · by_cases h1 : j = wrapIndex (rowBase x y r + 1)
    · exact ⟨1, le_rfl, h1⟩
    · exact absurd (rowPart_eq_zero b h0 h1) h

/-- On a byte of row `r` the at most 14 rows after it lay nothing. -/
theorem rowsPart_of_earlier_row (x y r : Nat) {e : Nat} (he : e ≤ 1) (rest : List Byte) (d : Nat) (hpos : 0 < d)
    (hd : d + rest.length ≤ 15) : rowsPart x y (r + d) rest (wrapIndex (rowBase x y r + e)) = 0 := by
  induction rest generalizing d with
  | nil => rfl
  | cons b rest ih =>
    rw [List.length_cons] at hd
    have hne := fun e' => (wrapIndex_later_row_ne x y r hpos (by omega) he (e' := e'))
    rw [rowsPart, rowPart_eq_zero b (hne 0 (by omega)).symm (hne 1 le_rfl).symm, Nat.add_assoc,
      ih (d + 1) (by omega) (by omega)]
    rfl

/-- No byte takes a part of two rows (R197). -/
theorem rowPart_or_rowsPart_eq_zero (x y r : Nat) (b : Byte) {rest : List Byte} (hrest : rest.length ≤ 14) (j : Fin 256) :
    rowPart x y r b j = 0 ∨ rowsPart x y (r + 1) rest j = 0 := by
  by_cases h : rowPart x y r b j = 0
  · exact .inl h
  · obtain ⟨e, he, rfl⟩ := rowPart_ne_zero h
    exact .inr (rowsPart_of_earlier_row x y r he rest 1 (by omega) (by omega))

/-! ## Which pixels are covered (R200) -/

/-- The bit of byte values that a pixel reads: most significant first in the pixel's byte (R30). -/
def pixelBit (part : Fin 256 → Byte) (p : Nat) : Bool := (part (wrapIndex (p / 8))).getLsbD (7 - p % 8)

/-- A 1 bit of the row byte `b` at column x and row y lands on pixel `p`. -/
def RowCovers (b : Byte) (x y p : Nat) : Prop := ∃ j < 8, b.getLsbD (7 - j) = true ∧ (y * 64 + x + j) % 2048 = p

theorem not_spriteCovers_nil (x y p : Nat) : ¬ SpriteCovers [] x y p := by
  rintro ⟨r, j, hr, -⟩
  exact absurd hr (Nat.not_lt_zero r)

/-- A sprite covers what its first row covers and what the rest covers, one row below. -/
theorem spriteCovers_cons (b : Byte) (rest : List Byte) (x y p : Nat) :
    SpriteCovers (b :: rest) x y p ↔ RowCovers b x y p ∨ SpriteCovers rest x (y + 1) p := by
  constructor
  · rintro ⟨r, j, hr, hj, hbit, hp⟩
    cases r with
    | zero => exact .inl ⟨j, hj, hbit, hp⟩
    | succ r => exact .inr ⟨r, j, Nat.lt_of_succ_lt_succ hr, hj, hbit, by rw [← hp]; congr 3; omega⟩
  · rintro (⟨j, hj, hbit, hp⟩ | ⟨r, j, hr, hj, hbit, hp⟩)
    · exact ⟨0, j, Nat.succ_pos _, hj, hbit, hp⟩
    · exact ⟨r + 1, j, Nat.succ_lt_succ hr, hj, hbit, by rw [← hp]; congr 3; omega⟩

theorem lt_of_getLsbD {b : Byte} {k : Nat} (h : b.getLsbD k = true) : k < 8 := by
  by_contra hk
  rw [BitVec.getLsbD_of_ge b k (by omega)] at h
  cases h

/-- On the first byte of a row the pixels are the row's leftmost ones, from bit position x mod 8 on. -/
theorem getLsbD_highPart_iff {x q p : Nat} (b : Byte) (hp : p < 2048) (hq : q % 8 = x % 8) (hbyte : p / 8 = q / 8 % 256) :
    (highPart x b).getLsbD (7 - p % 8) = true ↔ ∃ j < 8, b.getLsbD (7 - j) = true ∧ (q + j) % 2048 = p := by
  rw [highPart, BitVec.getLsbD_ushiftRight]
  constructor
  · intro hbit
    have hlt := lt_of_getLsbD hbit
    refine ⟨p % 8 - x % 8, by omega, ?_, by omega⟩
    rwa [show 7 - (p % 8 - x % 8) = x % 8 + (7 - p % 8) by omega]
  · rintro ⟨j, hj, hbit, hpix⟩
    rwa [show x % 8 + (7 - p % 8) = 7 - j by omega]

/-- On the second byte of a row the pixels are the row's rightmost ones, past the byte boundary. -/
theorem getLsbD_lowPart_iff {x q p : Nat} (b : Byte) (hp : p < 2048) (hq : q % 8 = x % 8)
    (hbyte : p / 8 = (q / 8 + 1) % 256) :
    (lowPart x b).getLsbD (7 - p % 8) = true ↔ ∃ j < 8, b.getLsbD (7 - j) = true ∧ (q + j) % 2048 = p := by
  rw [lowPart, BitVec.getLsbD_shiftLeft]
  simp only [Bool.and_eq_true, Bool.not_eq_true', decide_eq_true_eq, decide_eq_false_iff_not]
  constructor
  · rintro ⟨⟨-, hge⟩, hbit⟩
    refine ⟨8 - x % 8 + p % 8, by omega, ?_, by omega⟩
    rwa [show 7 - (8 - x % 8 + p % 8) = 7 - p % 8 - (8 - x % 8) by omega]
  · rintro ⟨j, hj, hbit, hpix⟩
    refine ⟨⟨by omega, by omega⟩, ?_⟩
    rwa [show 7 - p % 8 - (8 - x % 8) = 7 - j by omega]

/-- The two parts of a row are its bits on the pixels it covers (R193, R200). -/
theorem pixelBit_rowPart (x y r : Nat) (b : Byte) {p : Nat} (hp : p < 2048) :
    pixelBit (rowPart x y r b) p = true ↔ RowCovers b x (y + r) p := by
  have hq : ((y + r) * 64 + x) % 8 = x % 8 := by omega
  have hindex : ∀ n, wrapIndex (p / 8) = wrapIndex n ↔ p / 8 = n % 256 := fun n => by
    rw [eq_wrapIndex_iff]
    exact Eq.congr_left (Nat.mod_eq_of_lt (by omega))
  unfold pixelBit rowPart RowCovers
  simp only [hindex, rowBase]
  split
  next h0 => exact getLsbD_highPart_iff b hp hq h0
  next h0 =>
    split
    next h1 => exact getLsbD_lowPart_iff b hp hq h1
    next h1 =>
      refine iff_of_false (by simp) ?_
      rintro ⟨j, hj, -, hpix⟩
      omega

/-- A pixel takes a bit of the sprite exactly when the sprite covers it: no two rows cover one pixel. -/
theorem pixelBit_rowsPart (x y r : Nat) {sprite : List Byte} (hlen : sprite.length ≤ 15) {p : Nat} (hp : p < 2048) :
    pixelBit (rowsPart x y r sprite) p = true ↔ SpriteCovers sprite x (y + r) p := by
  induction sprite generalizing r with
  | nil => simp [pixelBit, rowsPart, not_spriteCovers_nil]
  | cons b rest ih =>
    have hrest : rest.length ≤ 14 := Nat.le_of_succ_le_succ hlen
    rw [spriteCovers_cons, ← pixelBit_rowPart x y r b hp, Nat.add_assoc, ← ih (r + 1) (by omega)]
    simp only [pixelBit, rowsPart, BitVec.getLsbD_xor]
    rcases rowPart_or_rowsPart_eq_zero x y r b hrest (wrapIndex (p / 8)) with hzero | hzero <;> simp [hzero]

/-! ## What a draw does to the pixels (R194 to R196) -/

theorem framePixel_drawRows (x y r : Nat) (sprite : List Byte) (f : Frame) (p : Nat) :
    framePixel (drawRows x y r sprite f).1 p = (framePixel f p ^^ pixelBit (rowsPart x y r sprite) p) := by
  rw [framePixel, drawRows_get, BitVec.getLsbD_xor, framePixel, pixelBit]

/-- The covered pixels are inverted. -/
theorem framePixel_draw_of_covers {sprite : List Byte} (hlen : sprite.length ≤ 15) {x y p : Nat} (f : Frame) (hp : p < 2048)
    (h : SpriteCovers sprite x y p) : framePixel (draw sprite x y f).1 p = !framePixel f p := by
  rw [draw, framePixel_drawRows, (pixelBit_rowsPart x y 0 hlen hp).mpr h, Bool.xor_true]

/-- No other pixel changes. -/
theorem framePixel_draw_of_not_covers {sprite : List Byte} (hlen : sprite.length ≤ 15) {x y p : Nat} (f : Frame)
    (hp : p < 2048) (h : ¬ SpriteCovers sprite x y p) : framePixel (draw sprite x y f).1 p = framePixel f p := by
  rw [draw, framePixel_drawRows, Bool.eq_false_iff.mpr (mt (pixelBit_rowsPart x y 0 hlen hp).mp h), Bool.xor_false]

/-- The rows collide when their parts together meet a 1 of some byte: no row meets what an earlier row of the same draw
wrote (R196, R197). -/
theorem drawRows_collides (x y r : Nat) {sprite : List Byte} (hlen : sprite.length ≤ 15) (f : Frame) :
    (drawRows x y r sprite f).2 = true ↔ ∃ j : Fin 256, f[j.val] &&& rowsPart x y r sprite j ≠ 0 := by
  induction sprite generalizing r f with
  | nil => simp [drawRows, rowsPart]
  | cons b rest ih =>
    have hrest : rest.length ≤ 14 := Nat.le_of_succ_le_succ hlen
    rw [drawRows_cons_collides, Bool.or_eq_true, drawRow_collides, ih _ (by omega), ← exists_or]
    refine exists_congr fun j => ?_
    rw [drawRow_get, rowsPart]
    rcases rowPart_or_rowsPart_eq_zero x y r b hrest j with hzero | hzero <;> simp [hzero]

theorem ne_zero_iff_exists_getLsbD {b : Byte} : b ≠ 0 ↔ ∃ k < 8, b.getLsbD k = true := by
  constructor
  · intro h
    by_contra hnone
    simp only [not_exists, not_and, Bool.not_eq_true] at hnone
    exact h (BitVec.eq_of_getLsbD_eq fun k hk => by rw [hnone k hk]; exact BitVec.getLsbD_zero.symm)
  · rintro ⟨k, -, hbit⟩ rfl
    exact absurd hbit (by simp)

/-- Each bit of each byte is that of one pixel (R30). -/
theorem exists_pixelBit_eq (j : Fin 256) {k : Nat} (hk : k < 8) :
    ∃ p < 2048, ∀ part : Fin 256 → Byte, pixelBit part p = (part j).getLsbD k := by
  have hindex : wrapIndex ((j.val * 8 + (7 - k)) / 8) = j := Fin.ext (by simp only [wrapIndex]; omega)
  have hbit : 7 - (j.val * 8 + (7 - k)) % 8 = k := by omega
  exact ⟨j.val * 8 + (7 - k), by omega, fun part => by rw [pixelBit, hindex, hbit]⟩

/-- Two families of bytes meet in some byte exactly when they meet in some pixel. -/
theorem exists_and_ne_zero_iff (g part : Fin 256 → Byte) :
    (∃ j, g j &&& part j ≠ 0) ↔ ∃ p < 2048, pixelBit g p = true ∧ pixelBit part p = true := by
  constructor
  · rintro ⟨j, hj⟩
    obtain ⟨k, hk, hbit⟩ := ne_zero_iff_exists_getLsbD.mp hj
    obtain ⟨p, hp, hpixel⟩ := exists_pixelBit_eq j hk
    rw [BitVec.getLsbD_and, Bool.and_eq_true] at hbit
    exact ⟨p, hp, by rw [hpixel, hpixel]; exact hbit⟩
  · rintro ⟨p, -, hbit⟩
    refine ⟨wrapIndex (p / 8), ne_zero_iff_exists_getLsbD.mpr ⟨7 - p % 8, by omega, ?_⟩⟩
    rw [BitVec.getLsbD_and, Bool.and_eq_true]
    exact hbit

/-- A draw collides exactly when it covers a pixel that is on (R196). -/
theorem draw_collides {sprite : List Byte} (hlen : sprite.length ≤ 15) (x y : Nat) (f : Frame) :
    (draw sprite x y f).2 = true ↔ ∃ p < 2048, SpriteCovers sprite x y p ∧ framePixel f p = true := by
  rw [draw, drawRows_collides x y 0 hlen, exists_and_ne_zero_iff]
  refine exists_congr fun p => and_congr_right fun hp => ?_
  rw [and_comm, pixelBit_rowsPart x y 0 hlen hp]
  rfl

/-- Settles O50: two XORs with the same parts cancel, and the second draw finds the covered pixels inverted. -/
theorem drawTwiceRestoresTheFrame : Obligations.DrawTwiceRestoresTheFrame := by
  intro sprite x y f hlen
  constructor
  · refine frame_ext fun j => ?_
    simp only [draw, drawRows_get, BitVec.xor_assoc, BitVec.xor_self]
    exact BitVec.xor_zero
  · rw [draw_collides hlen]
    refine exists_congr fun p => and_congr_right fun hp => and_congr_right fun hcovers => ?_
    rw [framePixel_draw_of_covers hlen f hp hcovers, Bool.not_eq_true']

/-- A pixel is inverted exactly when it is covered (R195, R200). -/
theorem framePixel_draw_eq_not_iff {sprite : List Byte} (hlen : sprite.length ≤ 15) {x y p : Nat} (f : Frame)
    (hp : p < 2048) : framePixel (draw sprite x y f).1 p = !framePixel f p ↔ SpriteCovers sprite x y p := by
  refine ⟨fun hinverted => ?_, framePixel_draw_of_covers hlen f hp⟩
  by_contra hnot
  rw [framePixel_draw_of_not_covers hlen f hp hnot] at hinverted
  cases hpixel : framePixel f p <;> simp [hpixel] at hinverted

/-- So a draw collides exactly when some pixel goes from on to off. -/
theorem draw_collides_iff_turned_off {sprite : List Byte} (hlen : sprite.length ≤ 15) (x y : Nat) (f : Frame) :
    (draw sprite x y f).2 = true ↔
      ∃ p < 2048, framePixel f p = true ∧ framePixel (draw sprite x y f).1 p = false := by
  rw [draw_collides hlen]
  refine exists_congr fun p => and_congr_right fun hp => ?_
  rw [and_comm, ← framePixel_draw_eq_not_iff hlen f hp]
  exact and_congr_right fun hon => by rw [hon, Bool.not_true]

/-- Settles O49, from what a draw does to each pixel and when it collides. -/
theorem drwXorsTheSpriteOntoPixels : Obligations.DrwXorsTheSpriteOntoPixels := by
  intro x y n s hn hfit
  have hlen : (s.bytesAtI n).length ≤ 15 := by simpa [State.bytesAtI] using hn
  have hcollides := draw_collides_iff_turned_off hlen (s.getV x).toNat (s.getV y).toNat s.fb
  refine ⟨_, exec_drw_of_le x y hfit, onlyChanges_draw s _ _, fun p => framePixel_draw_eq_not_iff hlen s.fb,
    fun hoff => ?_, fun hstay => ?_⟩
  · have hhit : (s.drawn x y n).2 = true := hcollides.mpr hoff
    rw [State.getV_emit, State.getV_setV_self, hhit]
    rfl
  · have hmiss : (s.drawn x y n).2 = false := by
      rw [← Bool.not_eq_true]
      intro hhit
      obtain ⟨p, hp, hon, hoff⟩ := hcollides.mp hhit
      exact absurd ((hstay p hp hon).symm.trans hoff) Bool.true_eq_false_eq_False
    rw [State.getV_emit, State.getV_setV_self, hmiss]
    rfl

end Sys2Proof.Machine
end
